-- ==== Sys2Proof/Word.lean ====
section
/-! DEFINITION. The word types of the block: every data value is an unsigned integer of a stated width (00_scope.md R9). -/

namespace Sys2Proof

/-- A 32-bit unsigned value: a word of the state array, the seed operand, a response (00_scope.md R6 `W`, R9). -/
abbrev Word := BitVec 32

/-- A 33-bit command word (30_encoding.md R62, `CMD_W`). -/
abbrev CmdWord := BitVec 33

/-- An index of the state array: exactly the 624 values 0 to 623 (20_memory.md R40, R43). -/
abbrev Index := Fin 624

/-- A value of the cursor: exactly the 625 values 0 to 624, so that 625 to 1023 cannot be written down
(10_state.md R22, R23; 92_eei_decisions.md D10). -/
abbrev Cursor := Fin 625

end Sys2Proof
end

