-- ==== Sys2Proof/Syntax.lean ====
section
/-! DEFINITION. The command set, closed at two commands (00_scope.md R11; spec/opcode_table.json). -/

namespace Sys2Proof

/-- One constructor per row of spec/opcode_table.json. -/
inductive Instr where
  /-- NEXT: draw one 32-bit value (42_draw_tempering.md R100). Its operand field is ignored, so all 2^32 spellings
  are this one command (30_encoding.md R65). -/
  | next
  /-- SEED value: (re)initialise the generator (40_seed.md R80). -/
  | seed (value : Word)
  deriving DecidableEq, Repr

end Sys2Proof
end

