-- ==== Sys2Proof/WellFormed.lean ====
section
/-! DEFINITION. The checks on data that comes from outside the types: a command word or a listing's value given as a
plain number. An `Instr` itself is always well formed: every 32-bit value is a legal seed (30_encoding.md R63) and no
encoding is reserved (30_encoding.md R67). -/

namespace Sys2Proof

/-- Every command is well formed: SEED takes any of the 2^32 values, NEXT has no operand (30_encoding.md R63, R67). -/
def Instr.wellFormed : Instr → Bool
  | .next => true
  | .seed _ => true

/-- A number is a command word when it fits the 33 bits of the one format (30_encoding.md R62). -/
def CmdWord.fits (n : Nat) : Bool := decide (n < 2 ^ 33)

/-- A number is a seed value when it is in 0 to 4294967295 (30_encoding.md R63, R74). -/
def Word.fits (n : Nat) : Bool := decide (n < 2 ^ 32)

/-- The most hexadecimal digits a listing may give a value (30_encoding.md R74: "0x followed by 1 to 8 hex digits"). -/
def hexValueLengthOk (digits : Nat) : Bool := decide (1 ≤ digits ∧ digits ≤ 8)

end Sys2Proof
end

