-- ==== Sys2Proof/Decode.lean ====
section
/-! DEFINITION. The decoder, total on every 33-bit word (30_encoding.md R64), and the encoder. -/

namespace Sys2Proof

/-- `OP = cmd[32]`: 1 selects SEED, 0 selects NEXT (30_encoding.md R62). -/
def opBit (cmd : CmdWord) : Bool := cmd.getLsbD 32

/-- `OPERAND = cmd[31:0]`, used exactly as presented (30_encoding.md R62, R63). -/
def operandField (cmd : CmdWord) : Word := cmd.extractLsb' 0 32

/-- "A decoder is `if cmd[32] == 1 then SEED(cmd[31:0]) else NEXT`" (30_encoding.md R64). -/
def decode (cmd : CmdWord) : Instr :=
  if opBit cmd then .seed (operandField cmd) else .next

/-- The opcode bit of a command word, bit 32 alone (30_encoding.md R64, `mask`). -/
def seedOpcode : CmdWord := 0x100000000#33

/-- `SEED v` assembles to `0x1_0000_0000 | v`; NEXT has the canonical spelling 0 (30_encoding.md R65, R74). -/
def encode : Instr → CmdWord
  | .next => 0#33
  | .seed value => seedOpcode ||| value.setWidth 33

/-- Why a number given as a command word is turned away. -/
inductive DecodeError where
  /-- The number does not fit the 33 bits of a command word (30_encoding.md R62). -/
  | widerThanCommandWord
  deriving DecidableEq, Repr

/-- Decode a command word given as a number. No 33-bit word is refused (30_encoding.md R67); a wider number is no
command word (DESIGN CHOICE, log 12; safe). -/
def decodeNumber (n : Nat) : Except DecodeError Instr :=
  if CmdWord.fits n then .ok (decode (BitVec.ofNat 33 n)) else .error .widerThanCommandWord

/-- The command whose word is `w`, of which the opcode table numbers the `nbits` lowest bits; the bits above are 0. -/
def decodeTableWord (nbits w : Nat) : Option Instr :=
  match decodeNumber (w % 2 ^ nbits) with
  | .ok i => some i
  | .error _ => none

end Sys2Proof
end

