-- ==== Sys2Proof/Config.lean ====
section
/-! DEFINITION. What is fixed for the machine: its sizes, the cursor's exhausted encoding and the fault codes.
The algorithm's wired constants stand beside the operations that use them, in Machine/Constants.lean.
No free value lives here: the one open value of the spec, `rsp_data` while `rsp_valid = 0`, is an argument of the
port view in Machine/Ports.lean. The OPEN parameters LAT_SEED, LAT_TWIST, LAT_DRAW and RESET_KIND (00_scope.md R7)
are read by no rule and have no field. -/

namespace Sys2Proof

/-- `N_WORDS`: the number of words of the state array (00_scope.md R6). -/
abbrev Config.nWords : Nat := 624

/-- The cursor value that means "the array is exhausted" (10_state.md R22). -/
abbrev Config.exhausted : Cursor := 624

/-- `fault_code` when no fault is recorded (60_exceptions.md R122). -/
abbrev Config.codeNone : BitVec 2 := 0b00#2

/-- `fault_code` of DrawBeforeSeed (60_exceptions.md R122). -/
abbrev Config.codeDrawBeforeSeed : BitVec 2 := 0b01#2

end Sys2Proof
end

