-- ==== Sys2Proof/Machine/State.lean ====
section
/-! DEFINITION. The state of one block instance (10_state.md R20, R30), what the host drives on the input ports, the
reasons a step can stop, and the state after reset. -/

namespace Sys2Proof.Machine

/-- The state array `words` (10_state.md R21), the block's only memory (20_memory.md R40): a list of (index, word)
pairs. An index that is not listed holds no value (10_state.md R30; DEDUCED, log 1; safe). The addressable unit is the
whole 32-bit word and there is no byte order (20_memory.md R40, R42; DEDUCED, log 2; safe), so a cell holds a word. -/
abbrev Memory := List (Index × Word)

/-- What the host drives on the input ports at one clock edge (30_encoding.md R68). -/
structure Edge where
  /-- `rst` is asserted. -/
  rst : Bool
  /-- `cmd_valid`: the host presents a command. -/
  cmdValid : Bool
  /-- `cmd`: the command word presented. -/
  cmd : CmdWord
  /-- `rsp_ready`: the host takes the response. -/
  rspReady : Bool
  deriving DecidableEq, Repr

/-- The state. The first five fields are the spec's (10_state.md R20), `rsp` is the response channel
(10_state.md R28, R30); `edges` and `responses` are the model's own
(DESIGN CHOICE, logs 3 and 4). -/
structure State where
  /-- The state array; plain data in canonical form, see `Memory.wf`. -/
  words : Memory
  /-- How many words of the current generation have been consumed; 624 is "exhausted" (10_state.md R22). -/
  cursor : Cursor
  /-- A SEED has completed since reset (10_state.md R25). -/
  seeded : Bool
  /-- The block has faulted since reset (10_state.md R26). -/
  fault : Bool
  /-- Which fault; meaningful only when `fault` (10_state.md R26). -/
  faultCode : BitVec 2
  /-- The response waiting on the channel: `some v` is `rsp_valid = 1` with `rsp_data = v`, `none` is `rsp_valid = 0`
  (30_encoding.md R66, R70). -/
  rsp : Option Word
  /-- The model's own: what the host drives at the coming clock edges, the next one first (DESIGN CHOICE,
  log 3; safe). -/
  edges : List Edge
  /-- The model's own: the responses the host has taken in this run, oldest first (30_encoding.md R76;
  DESIGN CHOICE, log 4; unsafe). -/
  responses : List Word
  deriving DecidableEq, Repr

/-- Why the machine stops. The spec's one fault, DrawBeforeSeed, is not here: its entry is described, so it is taken
as a next state (60_exceptions.md R125; DEDUCED, log 9; safe). -/
inductive Fault where
  /-- Raised by NEXT, in the twist or in the draw, when it would read an entry of `words` that holds no value. Safe:
  the model stops and returns no value computed from unspecified words (42_draw_tempering.md R110). No run from reset
  gets here: once `seeded` is 1 every entry holds a value (10_state.md R21; log 1). -/
  | unspecifiedWord
  deriving DecidableEq, Repr

/-- Why an instruction has no meaning. -/
inductive Refusal where
  /-- Raised by an arm of `exec` whose instruction is not modelled; no arm is. Safe. -/
  | notModelled (mnemonic : String)
  deriving DecidableEq, Repr

/-- The state after reset (10_state.md R30; 70_reset_and_hazards.md R140): every entry of `words` holds no value,
`cursor` is 624, the bits are 0, the response channel is empty. The host presents nothing and has taken nothing
(DESIGN CHOICE, logs 3 and 4). -/
def State.reset : State where
  words := []
  cursor := Config.exhausted
  seeded := false
  fault := false
  faultCode := Config.codeNone
  rsp := none
  edges := []
  responses := []

end Sys2Proof.Machine
end

