-- ==== Sys2Proof/Machine/Constants.lean ====
section
/-! DEFINITION. The wired constants of the algorithm (00_scope.md R6, 10_state.md R31): no operation can change them. -/

namespace Sys2Proof.Machine

/-- `UPPER_MASK`: selects bit 31 of `words[i]` in the twist. -/
def upperMask : Word := 0x80000000#32

/-- `LOWER_MASK`: selects bits 30:0 of `words[(i+1) mod 624]` in the twist. -/
def lowerMask : Word := 0x7FFFFFFF#32

/-- `MAGIC`: XORed in when the combined word is odd. -/
def magic : Word := 0x9908B0DF#32

/-- `M_OFFSET`: index offset of the third twist operand. -/
def twistOffset : Nat := 397

/-- `INIT_MULT`: multiplier of the seeding recurrence. -/
def initMult : Word := 0x6C078965#32

/-- `INIT_SHIFT`: right shift in the seeding recurrence. -/
def initShift : Nat := 30

/-- `TEMPER_U`: first tempering right shift. -/
def temperU : Nat := 11

/-- `TEMPER_S`: first tempering left shift. -/
def temperS : Nat := 7

/-- `TEMPER_B`: mask of the first left-shift step. -/
def temperB : Word := 0x9D2C5680#32

/-- `TEMPER_T`: second tempering left shift. -/
def temperT : Nat := 15

/-- `TEMPER_C`: mask of the second left-shift step. -/
def temperC : Word := 0xEFC60000#32

/-- `TEMPER_L`: last tempering right shift. -/
def temperL : Nat := 18

end Sys2Proof.Machine
end

