-- ==== Sys2Proof/Machine/Ops.lean ====
section
/-! DEFINITION. The named operations over the state array, the bits and the response channel, taking the one fault, and
the reset event. Every read and write of State in the meanings goes through these. -/

namespace Sys2Proof.Machine

/-- `words[i]`: the word at index `i`, if that entry holds one (00_scope.md R10, 10_state.md R30). -/
def Memory.read : Memory → Index → Option Word
  | [], _ => none
  | (j, w) :: rest, i => if j = i then some w else Memory.read rest i

/-- `words[i] <- v` (00_scope.md R10). The list stays sorted by index, one pair an index. -/
def Memory.write : Memory → Index → Word → Memory
  | [], i, v => [(i, v)]
  | (j, w) :: rest, i, v =>
    if i < j then (i, v) :: (j, w) :: rest
    else if i = j then (i, v) :: rest
    else (j, w) :: Memory.write rest i v

/-- The canonical form: indices strictly rising. An unlisted index holds no value, so no pair can repeat what an
unlisted index reads as. -/
abbrev Memory.wf (m : Memory) : Prop := m.Pairwise (fun a b => a.1 < b.1)

/-- Every entry holds a value: "always fully populated" (10_state.md R21). -/
abbrev Memory.populated (m : Memory) : Prop := ∀ i : Index, (m.read i).isSome = true

/-- Replace the state array. -/
def State.withWords (s : State) (m : Memory) : State := { s with words := m }

/-- `cursor <- c`. -/
def State.withCursor (s : State) (c : Cursor) : State := { s with cursor := c }

/-- `seeded <- 1` (40_seed.md R83). -/
def State.setSeeded (s : State) : State := { s with seeded := true }

/-- `respond(v)`: the block sets `rsp_valid = 1` with `v` on `rsp_data` (30_encoding.md R66, R70). -/
def State.respond (s : State) (v : Word) : State := { s with rsp := some v }

/-- The response is transferred to the host and `rsp_valid` returns to 0 (30_encoding.md R70); with no response
waiting, nothing happens. -/
def State.takeResponse (s : State) : State :=
  match s.rsp with
  | none => s
  | some v => { s with rsp := none, responses := s.responses ++ [v] }

/-- What the host drives at the coming clock edges. -/
def State.withEdges (s : State) (es : List Edge) : State := { s with edges := es }

/-- `cmd_ready` between commands and out of reset: 0 for ever after a fault (60_exceptions.md R126) and while a
response has not been taken (30_encoding.md R72). -/
def State.cmdReady (s : State) : Bool := !s.fault && s.rsp.isNone

/-- `raise DrawBeforeSeed`, the one fault: "the state changes are exactly: `fault <- 1`, `fault_code <- 0b01`"
(60_exceptions.md R125). There is no handler to enter and no return (60_exceptions.md R126). -/
def State.raiseDrawBeforeSeed (s : State) : State :=
  { s with fault := true, faultCode := Config.codeDrawBeforeSeed }

/-- The reset event: "whatever the block was doing, it takes the state of 10_state.md rule R30"
(70_reset_and_hazards.md R140). It starts a new run, whose list of responses is empty
(30_encoding.md R76; DESIGN CHOICE, log 4; unsafe); what the host drives next is the host's. -/
def State.resetBlock (s : State) : State := State.reset.withEdges s.edges

/-- An accepted command executes; a command presented while `cmd_ready = 0` "has no effect of any kind"
(30_encoding.md R69, R72; 60_exceptions.md R126). -/
def ifAccepted (s : State) (run : State → Host.Outcome State Fault Refusal) : Host.Outcome State Fault Refusal :=
  if s.cmdReady then run s else .next s

end Sys2Proof.Machine
end

