-- ==== Sys2Proof/Machine/Operands.lean ====
section
/-! DEFINITION. The operand forms: every index expression with which a rule addresses the state array
(20_memory.md R43). The SEED operand is `operandField` of Decode.lean. -/

namespace Sys2Proof.Machine

/-- The index of a plain loop variable or cursor value, 0 to 623. -/
def indexOf (n : Nat) : Index := Fin.ofNat 624 n

/-- `(i + 1) mod 624`, the second operand of a twist step. -/
def nextIndex (i : Nat) : Index := indexOf ((i + 1) % 624)

/-- `(i + 397) mod 624`, the third operand of a twist step. -/
def offsetIndex (i : Nat) : Index := indexOf ((i + twistOffset) % 624)

/-- The index a draw reads: the cursor, 0 to 623 at that point (42_draw_tempering.md R101). -/
def drawIndex (c : Cursor) : Index := indexOf c.val

/-- `zext_32(i)` of a loop index (40_seed.md R84). -/
def loopWord (i : Nat) : Word := BitVec.ofNat 32 i

end Sys2Proof.Machine
end

