-- ==== Sys2Proof/Machine/Twist.lean ====
section
/-! DEFINITION. The internal operation TWIST and the twist engine's datapath (41_twist.md). It is no command. -/

namespace Sys2Proof.Machine

/-- Step 1 of the per-index transition: bit 31 of the current word with bits 30:0 of the next (41_twist.md R91). -/
def combine (a b : Word) : Word := (a &&& upperMask) ||| (b &&& lowerMask)

/-- `if y[0] == 1 then MAGIC else 0`, the plain conditional (41_twist.md R94; 90_conflicts.md C6). -/
def magicIfOdd (y : Word) : Word := if y.getLsbD 0 then magic else 0#32

/-- The word a twist step writes from its three operands (41_twist.md R91 steps 1 and 2, R93 `mix`). -/
def mix (a b c : Word) : Word := c ^^^ (combine a b >>> 1) ^^^ magicIfOdd (combine a b)

/-- Step `i` of the pass, on the array as the earlier steps have left it (41_twist.md R90, R92). `none` when an operand
holds no value. -/
def twistStep (i : Nat) (m : Memory) : Option Memory :=
  match m.read (indexOf i), m.read (nextIndex i), m.read (offsetIndex i) with
  | some a, some b, some c => some (m.write (indexOf i) (mix a b c))
  | _, _, _ => none

/-- The array after the first `k` steps of the one ascending in-place pass (41_twist.md R92). -/
def twistPass : Nat → Memory → Option Memory
  | 0, m => some m
  | k + 1, m =>
    match twistPass k m with
    | some written => twistStep k written
    | none => none

/-- The 624 steps `for i = 0 to 623` (41_twist.md R90). Irreducible, so that no proof runs the 624 steps by accident;
`twistWords_eq` is its definition. -/
@[irreducible] def twistWords (m : Memory) : Option Memory := twistPass 624 m

/-- TWIST on the state: the next generation, then `cursor <- 0` (41_twist.md R90, R95). -/
def State.twist (s : State) : Option State :=
  match twistWords s.words with
  | some m => some ((s.withWords m).withCursor 0)
  | none => none

end Sys2Proof.Machine
end

