-- ==== Sys2Proof/Machine/Draw.lean ====
section
/-! DEFINITION. The NEXT command and the tempering unit (42_draw_tempering.md). -/

namespace Sys2Proof.Machine

/-- `y1` of TEMPER (42_draw_tempering.md R103). -/
def temper1 (y : Word) : Word := y ^^^ (y >>> temperU)

/-- `y2` of TEMPER from `y1` (42_draw_tempering.md R103). -/
def temper2 (y : Word) : Word := y ^^^ ((y <<< temperS) &&& temperB)

/-- `y3` of TEMPER from `y2` (42_draw_tempering.md R103). -/
def temper3 (y : Word) : Word := y ^^^ ((y <<< temperT) &&& temperC)

/-- `y4` of TEMPER from `y3` (42_draw_tempering.md R103). -/
def temper4 (y : Word) : Word := y ^^^ (y >>> temperL)

/-- TEMPER, a pure function of the raw word (42_draw_tempering.md R103). -/
def temper (y : Word) : Word := temper4 (temper3 (temper2 (temper1 y)))

/-- The draw proper: read `words[cursor]`, advance the cursor, respond with the tempered word; the read leaves `words`
as it was (42_draw_tempering.md R101, R105, R106). Used with `cursor` in 0 to 623 only. -/
def drawWord (s : State) : Host.Outcome State Fault Refusal :=
  match s.words.read (drawIndex s.cursor) with
  | some y => .next ((s.withCursor (s.cursor + 1)).respond (temper y))
  | none => .fault .unspecifiedWord

/-- An accepted NEXT with `seeded = 1`: the lazy twist, then the draw (42_draw_tempering.md R101, R102). -/
def drawLazily (s : State) : Host.Outcome State Fault Refusal :=
  if s.cursor = Config.exhausted then
    match s.twist with
    | some t => drawWord t
    | none => .fault .unspecifiedWord
  else drawWord s

/-- NEXT (42_draw_tempering.md R101): the `seeded` test comes first (60_exceptions.md R125), and a NEXT with
`seeded = 0` raises DrawBeforeSeed and does nothing else (R110). -/
def execNext (s : State) : Host.Outcome State Fault Refusal :=
  ifAccepted s fun s => if s.seeded then drawLazily s else .next s.raiseDrawBeforeSeed

end Sys2Proof.Machine
end

