-- ==== Sys2Proof/Machine/Seed.lean ====
section
/-! DEFINITION. The SEED command and the seed initialization FSM (40_seed.md). -/

namespace Sys2Proof.Machine

/-- `INIT_MULT * (prev XOR (prev >> 30)) + i` modulo 2^32, with a logical shift (40_seed.md R81, R84). -/
def seedNext (i : Nat) (prev : Word) : Word := initMult * (prev ^^^ (prev >>> initShift)) + loopWord i

/-- The array after the writes of indices 0 to `k`, in ascending order, and the word last written: the FSM keeps it in
a register `prev` and needs no read port (40_seed.md R81, R82). -/
def seedPass (value : Word) : Nat → Memory → Memory × Word
  | 0, m => (m.write (indexOf 0) value, value)
  | k + 1, m =>
    match seedPass value k m with
    | (written, prev) => (written.write (indexOf (k + 1)) (seedNext (k + 1) prev), seedNext (k + 1) prev)

/-- The array a SEED leaves: `words[0] <- value`, then `for i = 1 to 623` (40_seed.md R80; 90_conflicts.md C1).
Irreducible, so that no proof runs the 623 steps by accident; `seedWords_eq` is its definition. -/
@[irreducible] def seedWords (value : Word) (m : Memory) : Memory := (seedPass value 623 m).1

/-- The state a completed SEED leaves (40_seed.md R80, R83). No twist, no response. -/
def State.seedWith (s : State) (value : Word) : State :=
  ((s.withWords (seedWords value s.words)).withCursor Config.exhausted).setSeeded

/-- SEED value (40_seed.md R80): accepted in UNSEEDED, NEEDS_TWIST and HAS_BUFFERED_WORDS; no exception. -/
def execSeed (value : Word) (s : State) : Host.Outcome State Fault Refusal :=
  ifAccepted s fun s => .next (s.seedWith value)

end Sys2Proof.Machine
end

