-- ==== Sys2Proof/Machine/Flags.lean ====
section
/-! DEFINITION. The status register and the controller's derived conditions: functions of the stored bits. -/

namespace Sys2Proof.Machine

/-- One bit as a 1-bit field. -/
def bit (b : Bool) : BitVec 1 := BitVec.ofBool b

/-- STATUS: bit 0 SEEDED, bit 1 FAULT, bits 3:2 FAULT_CODE (10_state.md R27). -/
def State.status (s : State) : BitVec 4 := s.faultCode ++ (bit s.fault ++ bit s.seeded)

/-- The controller's four conditions (10_state.md R29). -/
inductive Condition where
  | unseeded
  | needsTwist
  | hasBufferedWords
  | halted
  deriving DecidableEq, Repr

/-- Which condition the controller is in (10_state.md R29). -/
def State.condition (s : State) : Condition :=
  if s.fault then .halted
  else if !s.seeded then .unseeded
  else if s.cursor = Config.exhausted then .needsTwist
  else .hasBufferedWords

end Sys2Proof.Machine
end

