-- ==== Sys2Proof/Machine/Ports.lean ====
section
/-! DEFINITION. The ports and the handshake (30_encoding.md section 4): what the block drives, and what it does at one
clock edge. -/

namespace Sys2Proof.Machine

/-- The output ports (30_encoding.md R68). -/
structure Outputs where
  cmdReady : Bool
  rspValid : Bool
  rspData : Word
  status : BitVec 4
  deriving DecidableEq, Repr

/-- What the output ports show while `rst` is at the given level: during reset `cmd_ready = 0` and `rsp_valid = 0`
(30_encoding.md R72); `status` always shows the bits (R71). `idle` is the free value of `rsp_data` while
`rsp_valid = 0`: it "is unspecified" then (R70; 93_implementation_defined.md U12; DESIGN CHOICE, log 6; safe), so a claim
must hold for every `idle`. -/
def State.outputs (s : State) (rst : Bool) (idle : Word) : Outputs where
  cmdReady := !rst && s.cmdReady
  rspValid := !rst && s.rsp.isSome
  rspData := if rst then idle else s.rsp.getD idle
  status := s.status

/-- One clock edge at which no operation is in progress (DEDUCED, logs 5 and 7). Reset is over everything
(60_exceptions.md R125, 70_reset_and_hazards.md R140); a command presented while `cmd_ready = 1` is accepted and runs as
one atomic step (30_encoding.md R60, R69); a response the host is ready for is transferred (R70); otherwise the block
holds its state. -/
def edgeStep (e : Edge) (s : State) : Host.Outcome State Fault Refusal :=
  if e.rst then .next s.resetBlock
  else if e.cmdValid && s.cmdReady then exec (decode e.cmd) s
  else if e.rspReady then .next s.takeResponse
  else .next s

/-- One step: the next clock edge the host drives, or nothing when it drives none ("between commands it simply holds
its state", 60_exceptions.md R130). -/
def stepPorts (s : State) : Host.Outcome State Fault Refusal :=
  match s.edges with
  | [] => .next s
  | e :: rest => edgeStep e (s.withEdges rest)

/-- The edge at which the host presents one command word and nothing else. -/
def presentEdge (cmd : CmdWord) : Edge := { rst := false, cmdValid := true, cmd := cmd, rspReady := false }

/-- The host takes the response that waits, if any, and presents `cmd` at the very next edge (DESIGN CHOICE, log 11;
safe). -/
def State.present (s : State) (cmd : CmdWord) : State :=
  s.takeResponse.withEdges (presentEdge cmd :: s.edges)

/-- The command word of a number whose `nbits` lowest bits are given, the bits above being 0. -/
def tableCmd (nbits w : Nat) : CmdWord := BitVec.ofNat 33 (w % 2 ^ nbits)

end Sys2Proof.Machine
end

