-- ==== Sys2Proof/Machine/Step.lean ====
section
/-! DEFINITION. The step of the machine and the host's way to place one command. -/

namespace Sys2Proof.Machine

/-- One step: one clock edge of the host's (Ports.lean). -/
def step (s : State) : Host.Outcome State Fault Refusal := stepPorts s

/-- The state with the command of word `w` presented at the next edge, so that the next step accepts and runs it. -/
def State.withFetchWord (s : State) (nbits w : Nat) : State := s.present (tableCmd nbits w)

end Sys2Proof.Machine
end

