-- ==== Sys2Proof/Machine/Listing.lean ====
section
/-! DEFINITION. The assembler syntax of listings (30_encoding.md R74), read from a line's characters. Blanks and tabs
separate the parts of a line, which the spec does not fix
(DESIGN CHOICE, log 8; unsafe). -/

namespace Sys2Proof.Machine

/-- What one line of a listing says. -/
inductive ListingLine where
  /-- Nothing but blanks and a comment. -/
  | blank
  /-- One command, as its command word. -/
  | command (cmd : CmdWord)
  deriving DecidableEq, Repr

/-- "Anything from `;` to the end of the line is a comment." -/
def dropComment : List Char → List Char
  | [] => []
  | c :: rest => if c = ';' then [] else c :: dropComment rest

/-- Blanks and tabs separate the parts of a line. -/
def isGap (c : Char) : Bool := c == ' ' || c == '\t'

/-- The parts of a line. -/
def parts : List Char → List (List Char)
  | [] => []
  | c :: rest =>
    if isGap c then parts rest
    else
      match rest, parts rest with
      | [], _ => [[c]]
      | d :: _, ps => if isGap d then [c] :: ps else (match ps with | [] => [[c]] | p :: qs => (c :: p) :: qs)

/-- The value of a decimal digit. -/
def decimalDigit (c : Char) : Option Nat :=
  if '0' ≤ c ∧ c ≤ '9' then some (c.toNat - '0'.toNat) else none

/-- The value of a hexadecimal digit. -/
def hexDigit (c : Char) : Option Nat :=
  if '0' ≤ c ∧ c ≤ '9' then some (c.toNat - '0'.toNat)
  else if 'a' ≤ c ∧ c ≤ 'f' then some (c.toNat - 'a'.toNat + 10)
  else if 'A' ≤ c ∧ c ≤ 'F' then some (c.toNat - 'A'.toNat + 10)
  else none

/-- The number the digits write in the given base, most significant first, on top of `acc`. -/
def digitsValue (base : Nat) (digit : Char → Option Nat) : Nat → List Char → Option Nat
  | acc, [] => some acc
  | acc, c :: rest =>
    match digit c with
    | some d => digitsValue base digit (acc * base + d) rest
    | none => none

/-- `<value>`: decimal 0 to 4294967295, or 0x followed by 1 to 8 hex digits. -/
def parseValue : List Char → Option Word
  | [] => none
  | '0' :: 'x' :: digits =>
    if hexValueLengthOk digits.length then (digitsValue 16 hexDigit 0 digits).map (BitVec.ofNat 32) else none
  | digits =>
    match digitsValue 10 decimalDigit 0 digits with
    | some n => if Word.fits n then some (BitVec.ofNat 32 n) else none
    | none => none

/-- The encoding column: nine hexadecimal digits, the leading one being bit 32, `_` after it. -/
def parseEncoding : List Char → Option CmdWord
  | top :: '_' :: digits =>
    if digits.length = 8 then
      match digitsValue 16 hexDigit 0 (top :: digits) with
      | some n => if CmdWord.fits n then some (BitVec.ofNat 33 n) else none
      | none => none
    else none
  | _ => none

/-- `NEXT`, no operand, or `SEED <value>`; mnemonics are upper case. -/
def parseCommand : List (List Char) → Option Instr
  | [['N', 'E', 'X', 'T']] => some .next
  | [['S', 'E', 'E', 'D'], value] => (parseValue value).map .seed
  | _ => none

/-- The command word of the parts of a line: the command's own encoding, or the word the encoding column shows where it
stands, which must be a word of that command (30_encoding.md R65 allows NEXT any operand field; DESIGN CHOICE, log 8;
unsafe). -/
def parseParts : List (List Char) → Option ListingLine
  | [] => some .blank
  | first :: rest =>
    match parseEncoding first with
    | some cmd => if parseCommand rest = some (decode cmd) then some (.command cmd) else none
    | none => (parseCommand (first :: rest)).map fun i => .command (encode i)

/-- One line of a listing; `none` when it is not one. -/
def parseLine (line : List Char) : Option ListingLine := parseParts (parts (dropComment line))

/-- A whole listing: the command words in order; `none` when a line is not a line of a listing. -/
def assemble : List (List Char) → Option (List CmdWord)
  | [] => some []
  | line :: rest =>
    match parseLine line, assemble rest with
    | some .blank, some cmds => some cmds
    | some (.command cmd), some cmds => some (cmd :: cmds)
    | _, _ => none

end Sys2Proof.Machine
end

