-- ==== Sys2Proof/Machine/Reference.lean ====
section
/-! DEFINITION. The spec's own second forms of what the machine does, in which statements are written: the seeded array
generated in one sweep, the twist's `mix` of the old/new table, the generations and the closed form of the output
sequence, and the edges with which a host draws. No meaning calls them. -/

namespace Sys2Proof.Machine

/-- `n` cells of the seeded array from index `i` on, the word at `i` being `w` (40_seed.md R81, R82): the recurrence
without any write, a form that is cheap to evaluate. -/
def seedCellsFrom : Nat → Nat → Word → Memory
  | 0, _, _ => []
  | n + 1, i, w => (indexOf i, w) :: seedCellsFrom n (i + 1) (seedNext (i + 1) w)

/-- The whole seeded array (42_draw_tempering.md R108 `G0(s)`). -/
def seedCells (value : Word) : Memory := seedCellsFrom 624 0 value

/-- `mix` as the old/new table writes it, with the parity taken from `b[0]` (41_twist.md R93). -/
def tableMix (a b c : Word) : Word :=
  c ^^^ (((a &&& 0x80000000#32) ||| (b &&& 0x7FFFFFFF#32)) >>> 1) ^^^ (if b.getLsbD 0 then 0x9908B0DF#32 else 0#32)

/-- Generation `g` after `SEED value`: generation 0 is the seeded array, each later one the twist of the one before
(42_draw_tempering.md R108). -/
def generation (value : Word) : Nat → Option Memory
  | 0 => some (seedWords value [])
  | g + 1 => (generation value g).bind twistWords

/-- `out_k(s) = TEMPER(G_g(s)[(k-1) mod 624])` with `g = ((k-1) div 624) + 1` (42_draw_tempering.md R108). -/
def closedForm (value : Word) (k : Nat) : Option Word :=
  (generation value ((k - 1) / 624 + 1)).bind fun m => (m.read (indexOf ((k - 1) % 624))).map temper

/-- The edge at which the host takes a response and presents nothing. -/
def takeEdge : Edge := { rst := false, cmdValid := false, cmd := 0#33, rspReady := true }

/-- The host presents each command word in turn and takes a response after each. -/
def drawEdges (cmds : List CmdWord) : List Edge := cmds.flatMap fun c => [presentEdge c, takeEdge]

end Sys2Proof.Machine
end

