-- ==== Sys2Proof/Safety.lean ====
section
/-! DEFINITION. What counts as a safe state and a finished run, and the invariant of the block, in the terms the
statements use. -/

namespace Sys2Proof.Machine

/-- A safe state: the block has not faulted (60_exceptions.md R120). -/
def State.Safe (s : State) : Prop := s.fault = false

/-- A run is over: the host presents nothing further, every command has completed, every response has been taken and no
fault is recorded; HALTED is never an end (30_encoding.md R76). -/
def State.RunOver (s : State) : Prop := s.edges = [] ∧ s.rsp = none ∧ s.fault = false

/-- The invariant of the state array: canonical, and "always fully populated" once seeded (10_state.md R21). -/
structure State.ArrayInv (s : State) : Prop where
  wf : s.words.wf
  populated : s.seeded = true → s.words.populated

/-- The invariant of the fault bits: `fault_code` says what `fault` says, and only an unseeded block has faulted
(10_state.md R26, 60_exceptions.md R120, R122). -/
structure State.FaultInv (s : State) : Prop where
  code : s.faultCode = if s.fault then Config.codeDrawBeforeSeed else Config.codeNone
  unseeded : s.fault = true → s.seeded = false

/-- The invariant of the cursor and the response: before the first SEED the cursor is 624, no entry holds a value and
no response waits (10_state.md R29, R30); afterwards the cursor is never 0 between commands
(42_draw_tempering.md section 5), and a waiting response is the tempered word just drawn (R101, R106). -/
structure State.DrawInv (s : State) : Prop where
  unseededCursor : s.seeded = false → s.cursor = Config.exhausted
  unseededWords : s.seeded = false → s.words = []
  unseededRsp : s.seeded = false → s.rsp = none
  cursorPos : s.cursor ≠ 0
  rspDrawn : ∀ v, s.rsp = some v → ∃ y, s.words.read (indexOf (s.cursor.val - 1)) = some y ∧ v = temper y

/-- The invariant every step keeps. -/
structure State.Inv (s : State) : Prop where
  array : s.ArrayInv
  fault : s.FaultInv
  draw : s.DrawInv

end Sys2Proof.Machine
end

