-- ==== Sys2Proof/Certificates/Slice0/Obligations.lean ====
section
/-! DEFINITION. The statements for the provers, each from a rule of the spec. -/

open Sys2Proof Sys2Proof.Machine

/-! ## Encoding -/

/-- The decoder reads back every command from its encoding, SEED at each of its 2^32 operand values
(30_encoding.md R62 to R65). -/
def Obligations.DecodeOfEncodeIsTheCommand : Prop := ∀ i : Instr, decode (encode i) = i

/-- The opcode map (30_encoding.md R64): under the mask 0x1_0000_0000 a word with bit 32 clear is NEXT, one with bit 32
set is SEED of its low 32 bits, and every word is one of the two. -/
def Obligations.OpcodeMapIsTotal : Prop := ∀ cmd : CmdWord,
  (cmd &&& 0x100000000#33 = 0#33 ∧ decode cmd = .next) ∨
  (cmd &&& 0x100000000#33 = 0x100000000#33 ∧ decode cmd = .seed (cmd.setWidth 32))

/-- NEXT ignores its operand field, and its canonical spelling has the field 0 (30_encoding.md R65). -/
def Obligations.NextSpellingsAreOneCommand : Prop :=
  (∀ operand : Word, decode (operand.setWidth 33) = .next) ∧ encode .next = 0x000000000#33

/-- Where a word has one meaning, encoding gives it back: every SEED word (30_encoding.md R63, R64). -/
def Obligations.EncodeOfDecodedSeedWordIsTheWord : Prop := ∀ cmd : CmdWord, cmd.getLsbD 32 = true →
  encode (decode cmd) = cmd

/-- The decode vectors of 95_test_vectors.md V7. -/
def Obligations.DecodeVectorsOfTheSpec : Prop :=
  decode 0x000000000#33 = .next ∧ decode 0x0FFFFFFFF#33 = .next ∧ decode 0x000000001#33 = .next ∧
  decode 0x100000000#33 = .seed 0#32 ∧ decode 0x100000001#33 = .seed 1#32 ∧
  decode 0x1FFFFFFFF#33 = .seed 4294967295#32 ∧ decode 0x100001571#33 = .seed 5489#32 ∧
  decode 0x180000000#33 = .seed 2147483648#32

/-- Four sample lines. A bare NEXT, and SEED in decimal with a comment and in hexadecimal, assemble to the words
30_encoding.md R74 gives. The first clause is not R74's, which says NEXT assembles to `0x0_0000_0000`: that a line with
an encoding column gives the word the column shows is the model's choice (DESIGN CHOICE, log 8), after the line
`0_12345678   NEXT` of 95_test_vectors.md P6. -/
def Obligations.ListingLinesAssemble : Prop :=
  parseLine ['0', '_', '1', '2', '3', '4', '5', '6', '7', '8', ' ', 'N', 'E', 'X', 'T'] =
    some (.command 0x012345678#33) ∧
  parseLine ['S', 'E', 'E', 'D', ' ', '5', '4', '8', '9', ' ', ';', ' ', 'x'] = some (.command 0x100001571#33) ∧
  parseLine ['S', 'E', 'E', 'D', ' ', '0', 'x', '1', '5', '7', '1'] = some (.command 0x100001571#33) ∧
  parseLine ['N', 'E', 'X', 'T'] = some (.command 0#33)

/-! ## The step, the ports and reset -/

/-- A step runs the decoded command: at an edge out of reset at which a command is presented while `cmd_ready = 1`, the
step is `exec` of the command its word decodes to, on the state with that edge consumed (30_encoding.md R60, R69). That
the ports are read from the list `edges` is the model's choice (log 3). -/
def Obligations.StepRunsTheAcceptedCommand : Prop := ∀ (s : State) (e : Edge) (rest : List Edge),
  s.edges = e :: rest → e.rst = false → e.cmdValid = true → s.cmdReady = true →
    step s = exec (decode e.cmd) { s with edges := rest }

/-- A command word placed by `withFetchWord` is accepted by the very next step of a block that has not faulted, and that
step is `exec` of the command the opcode table's numbering of the word gives; a response that waited has been taken (the
model's choice, log 11). -/
def Obligations.PlacedWordRunsAtTheNextStep : Prop := ∀ (s : State) (nbits w : Nat),
  s.fault = false → w < 2 ^ nbits → w < 2 ^ 33 →
    ∃ i, decodeTableWord nbits w = some i ∧ i = decode (BitVec.ofNat 33 w) ∧
      step (s.withFetchWord nbits w) = exec i { s with rsp := none, responses := s.responses ++ s.rsp.toList }

/-- A command presented while `cmd_ready = 0`, that is in HALTED or while a response waits, has no effect
(30_encoding.md R69, R72). -/
def Obligations.UnacceptedCommandHasNoEffect : Prop := ∀ (s : State) (i : Instr),
  (s.fault = true ∨ s.rsp ≠ none) → s.cmdReady = false ∧ exec i s = .next s

/-- With nothing driven on the ports the block holds its state (60_exceptions.md R130). An empty `edges`
standing for "nothing driven" is the model's choice (log 3). -/
def Obligations.IdleBlockHoldsItsState : Prop := ∀ s : State, s.edges = [] → step s = .next s

/-- What State.reset holds (10_state.md R30): every entry without a value, the cursor 624, the bits and STATUS 0, no
response; the block is UNSEEDED. -/
def Obligations.ResetStateIsTheSpecs : Prop :=
  (∀ i : Index, State.reset.words.read i = none) ∧ State.reset.cursor.val = 624 ∧ State.reset.seeded = false ∧
  State.reset.fault = false ∧ State.reset.faultCode = 0b00#2 ∧ State.reset.status = 0b0000#4 ∧
  State.reset.rsp = none ∧ State.reset.condition = .unseeded

/-- The reset event, in every state and whatever else the host drives (70_reset_and_hazards.md R140; how `rst` reaches the step is log 3): the state of R30;
`cmd_ready = 0` and `rsp_valid = 0` while reset is asserted, `cmd_ready = 1` when it is released. -/
def Obligations.ResetEdgeGivesTheResetState : Prop := ∀ (s : State) (e : Edge) (rest : List Edge),
  s.edges = e :: rest → e.rst = true →
    (∀ idle, (s.outputs true idle).cmdReady = false ∧ (s.outputs true idle).rspValid = false) ∧
    ∃ t, step s = .next t ∧ (∀ i : Index, t.words.read i = none) ∧ t.cursor.val = 624 ∧ t.seeded = false ∧
      t.fault = false ∧ t.faultCode = 0b00#2 ∧ t.rsp = none ∧ t.condition = .unseeded ∧
      ∀ idle, (t.outputs true idle).cmdReady = false ∧ (t.outputs false idle).cmdReady = true

/-- The response transfer (30_encoding.md R70): a waiting response stands on the port, whatever the free value `idle`
is; an edge without `rsp_ready` leaves it there, an edge with `rsp_ready` hands it to the host; either way the rest of
the block is as it was and no command is accepted at that edge. The list `responses` of what the host has taken is the
model's own (log 4). -/
def Obligations.ResponseIsHeldUntilTaken : Prop :=
  ∀ (s : State) (v : Word) (e : Edge) (rest : List Edge),
    s.rsp = some v → s.edges = e :: rest → e.rst = false →
      (∀ idle, (s.outputs false idle).rspValid = true ∧ (s.outputs false idle).rspData = v ∧
        (s.outputs false idle).cmdReady = false) ∧
      (e.rspReady = false → step s = .next { s with edges := rest }) ∧
      (e.rspReady = true → step s = .next { s with edges := rest, rsp := none, responses := s.responses ++ [v] })

/-- STATUS: bit 0 is `seeded`, bit 1 `fault`, bits 3:2 `fault_code`, and the status port shows it at every moment
(10_state.md R27, 30_encoding.md R71). -/
def Obligations.StatusShowsTheBits : Prop := ∀ (s : State) (rst : Bool) (idle : Word),
  s.status.getLsbD 0 = s.seeded ∧ s.status.getLsbD 1 = s.fault ∧ s.status.extractLsb' 2 2 = s.faultCode ∧
  (s.outputs rst idle).status = s.status

/-! ## SEED -/

/-- The seeding recurrence (40_seed.md R81): an accepted SEED completes, leaves `value` at index 0, and at every index
from 1 to 623 the recurrence's word of the entry before. -/
def Obligations.SeedFillsTheArrayByTheRecurrence : Prop := ∀ (s : State) (value : Word), s.cmdReady = true →
  ∃ t, exec (.seed value) s = .next t ∧ t.words.read (indexOf 0) = some value ∧
    ∀ i : Nat, 1 ≤ i → i ≤ 623 → ∃ prev, t.words.read (indexOf (i - 1)) = some prev ∧
      t.words.read (indexOf i) =
        some (0x6C078965#32 * (prev ^^^ (prev >>> 30)) + BitVec.ofNat 32 i)

/-- What SEED writes and leaves (40_seed.md R80, R83): the array is the one the writes of
R81 leave, untwisted, and populated; `cursor = 624`, `seeded = 1`, the block
is in NEEDS_TWIST from whatever condition; the fault bits, the response channel and the host's side are unchanged. -/
def Obligations.SeedCompletesInNeedsTwist : Prop := ∀ (s : State) (value : Word), s.cmdReady = true →
  ∃ t, exec (.seed value) s = .next t ∧ t.words = seedWords value s.words ∧ t.words.populated ∧ t.cursor.val = 624 ∧ t.seeded = true ∧
    t.condition = .needsTwist ∧ t.fault = s.fault ∧ t.faultCode = s.faultCode ∧ t.rsp = s.rsp ∧ t.rsp = none ∧
    t.edges = s.edges ∧ t.responses = s.responses

/-- SEED's result is a function of its operand alone (40_seed.md R82): from any two states with canonical arrays it
leaves the same array, cursor and `seeded` bit. -/
def Obligations.SeedIgnoresThePriorState : Prop := ∀ (s₁ s₂ : State) (value : Word),
  s₁.cmdReady = true → s₂.cmdReady = true → s₁.words.wf → s₂.words.wf →
    ∃ t₁ t₂, exec (.seed value) s₁ = .next t₁ ∧ exec (.seed value) s₂ = .next t₂ ∧
      t₁.words = t₂.words ∧ t₁.cursor = t₂.cursor ∧ t₁.seeded = t₂.seeded

/-- Two SEEDs in a row leave the state of the second (40_seed.md R85). -/
def Obligations.SecondSeedOverwritesTheFirst : Prop := ∀ (s : State) (a b : Word),
  s.cmdReady = true → s.words.wf →
    ∃ t u, exec (.seed a) s = .next t ∧ exec (.seed b) t = .next u ∧ exec (.seed b) s = .next u

/-- The 624 ascending writes over any canonical array leave exactly the one-sweep form of the recurrence
(40_seed.md R81, R82). -/
def Obligations.SeedWritesAreTheOneSweepForm : Prop := ∀ (value : Word) (m : Memory), m.wf →
  seedWords value m = seedCells value

/-! ## TWIST and TEMPER -/

/-- One step of the twist engine (41_twist.md R91): `y` combines bit 31 of `words[i]` with bits 30:0 of
`words[(i+1) mod 624]`, and `words[i]` becomes `words[(i+397) mod 624] XOR (y >> 1) XOR (MAGIC if y is odd else 0)`;
every other entry reads as before. -/
def Obligations.TwistStepIsThePerIndexTransition : Prop :=
  ∀ (i : Nat) (m : Memory) (a b c y : Word), i < 624 →
    m.read (indexOf i) = some a → m.read (indexOf ((i + 1) % 624)) = some b →
    m.read (indexOf ((i + 397) % 624)) = some c →
    y = (a &&& 0x80000000#32) ||| (b &&& 0x7FFFFFFF#32) →
      ∃ n, twistStep i m = some n ∧
        n.read (indexOf i) = some (c ^^^ (y >>> 1) ^^^ (if y.getLsbD 0 then 0x9908B0DF#32 else 0#32)) ∧
        ∀ j, j ≠ indexOf i → n.read j = m.read j

/-- The ascending in-place pass is the old/new table (41_twist.md R92, R93): on an array that holds `old`, the twist
completes and leaves an array `new` with the three ranges of the table. -/
def Obligations.TwistIsTheOldNewTable : Prop := ∀ (m : Memory) (old : Nat → Word),
  (∀ i, i < 624 → m.read (indexOf i) = some (old i)) →
    ∃ (n : Memory) (new : Nat → Word), twistWords m = some n ∧
      (∀ i, i < 624 → n.read (indexOf i) = some (new i)) ∧
      (∀ i, i ≤ 226 → new i = tableMix (old i) (old (i + 1)) (old (i + 397))) ∧
      (∀ i, 227 ≤ i → i ≤ 622 → new i = tableMix (old i) (old (i + 1)) (new (i - 227))) ∧
      new 623 = tableMix (old 623) (new 0) (new 396)

/-- Bits 30:0 of `words[0]` never reach the next generation (41_twist.md R97): two populated arrays that agree but
for those bits have the same twist. -/
def Obligations.TwistIgnoresLowBitsOfWordZero : Prop := ∀ (m₁ m₂ : Memory) (a₁ a₂ : Word),
  m₁.populated → (∀ i : Index, i ≠ 0 → m₁.read i = m₂.read i) →
  m₁.read 0 = some a₁ → m₂.read 0 = some a₂ → a₁.getLsbD 31 = a₂.getLsbD 31 →
    ∃ n₁ n₂, twistWords m₁ = some n₁ ∧ twistWords m₂ = some n₂ ∧ ∀ i : Index, n₁.read i = n₂.read i

/-- The twist of 624 zero words is 624 zero words (41_twist.md R97). -/
def Obligations.TwistOfZerosIsZeros : Prop := ∀ m : Memory, (∀ i : Index, m.read i = some 0#32) →
  ∃ n, twistWords m = some n ∧ ∀ i : Index, n.read i = some 0#32

/-- TEMPER's four steps, each on the result of the step before (42_draw_tempering.md R103). -/
def Obligations.TemperIsTheFourSteps : Prop := ∀ y0 y1 y2 y3 y4 : Word,
  y1 = y0 ^^^ (y0 >>> 11) → y2 = y1 ^^^ ((y1 <<< 7) &&& 0x9D2C5680#32) →
  y3 = y2 ^^^ ((y2 <<< 15) &&& 0xEFC60000#32) → y4 = y3 ^^^ (y3 >>> 18) → temper y0 = y4

/-- TEMPER bit by bit, with the set bits of its two masks, and its linearity over XOR (42_draw_tempering.md R104). -/
def Obligations.TemperBitByBitAndLinear : Prop :=
  (∀ y0 : Word, ∃ y1 y2 y3 : Word, ∀ j : Nat, j ≤ 31 →
    (y1.getLsbD j = if j ≤ 20 then y0.getLsbD j ^^ y0.getLsbD (j + 11) else y0.getLsbD j) ∧
    (y2.getLsbD j =
      if j ≥ 7 then
        y1.getLsbD j ^^ (y1.getLsbD (j - 7) && decide (j ∈ [31, 28, 27, 26, 24, 21, 19, 18, 14, 12, 10, 9, 7]))
      else y1.getLsbD j) ∧
    (y3.getLsbD j =
      if j ≥ 15 then y2.getLsbD j ^^ (y2.getLsbD (j - 15) && decide (j ∈ [31, 30, 29, 27, 26, 25, 24, 23, 22, 18, 17]))
      else y2.getLsbD j) ∧
    ((temper y0).getLsbD j = if j ≤ 13 then y3.getLsbD j ^^ y3.getLsbD (j + 18) else y3.getLsbD j)) ∧
  (∀ a b : Word, temper (a ^^^ b) = temper a ^^^ temper b) ∧ temper 0#32 = 0#32

/-- TEMPER loses nothing: two raw words with the same response are the same word. It is the step behind the spec's
"the state is fully recoverable from 624 consecutive outputs" (00_scope.md R4, 60_exceptions.md R130). -/
def Obligations.TemperIsInjective : Prop := ∀ a b : Word, temper a = temper b → a = b

/-! ## NEXT -/

/-- A draw from the current generation (42_draw_tempering.md R105, R106): with `cursor` below 624 an accepted NEXT
responds with the tempered `words[cursor]`, advances the cursor by one, and leaves all else, every entry of `words`
among it, as it was. -/
def Obligations.NextDrawsTheBufferedWord : Prop := ∀ (s : State) (y : Word),
  s.cmdReady = true → s.seeded = true → s.cursor.val ≤ 623 → s.words.read (indexOf s.cursor.val) = some y →
    ∃ t, exec .next s = .next t ∧ t.rsp = some (temper y) ∧ t.cursor.val = s.cursor.val + 1 ∧
      (∀ i : Index, t.words.read i = s.words.read i) ∧ t.words = s.words ∧ t.seeded = s.seeded ∧ t.fault = s.fault ∧
      t.faultCode = s.faultCode ∧ t.edges = s.edges ∧ t.responses = s.responses

/-- The lazy twist (42_draw_tempering.md R102): with `cursor = 624` and a populated array an accepted NEXT twists, reads
the new `words[0]`, and leaves `cursor = 1`; the array it leaves is the twisted one; all else is as it was. -/
def Obligations.NextTwistsThenDraws : Prop := ∀ s : State,
  s.cmdReady = true → s.seeded = true → s.cursor.val = 624 → s.words.populated →
    ∃ (t : State) (m : Memory) (y : Word), twistWords s.words = some m ∧ m.read (indexOf 0) = some y ∧
      exec .next s = .next t ∧ t.words = m ∧ t.rsp = some (temper y) ∧ t.cursor.val = 1 ∧ t.seeded = s.seeded ∧
      t.fault = s.fault ∧ t.faultCode = s.faultCode ∧ t.edges = s.edges ∧ t.responses = s.responses

/-- DrawBeforeSeed (42_draw_tempering.md R110, 60_exceptions.md R121, R125): an accepted NEXT with `seeded = 0` sets
`fault` and `fault_code = 0b01` and changes nothing else: no twist, no read, no response, the same array and cursor. -/
def Obligations.NextBeforeSeedTakesTheFault : Prop := ∀ s : State, s.cmdReady = true → s.seeded = false →
  exec .next s = .next { s with fault := true, faultCode := 0b01#2 } ∧ s.rsp = none

/-- HALTED (60_exceptions.md R126): after the fault no edge but a reset changes the array, the cursor or any bit, no
command is accepted, and `cmd_ready` stays 0. -/
def Obligations.HaltedIsLeftOnlyByReset : Prop := ∀ (s : State) (e : Edge) (rest : List Edge),
  s.fault = true → s.edges = e :: rest → e.rst = false →
    s.condition = .halted ∧ ∃ t, step s = .next t ∧ t.words = s.words ∧ t.cursor = s.cursor ∧ t.seeded = s.seeded ∧
      t.fault = true ∧ t.faultCode = s.faultCode ∧ t.cmdReady = false ∧ t.edges = rest

/-! ## Whole-machine rules -/

/-- The invariant holds after reset. -/
def Obligations.ResetMeetsTheInvariant : Prop := State.reset.Inv

/-- Every step keeps the invariant: the array canonical and populated once seeded (10_state.md R21), the fault bits
consistent and only in an unseeded block (60_exceptions.md R120, R122), the cursor 624 before the first SEED
(10_state.md R29) and never 0 between commands, a waiting response the tempered word just drawn (R101, R106). -/
def Obligations.StepKeepsTheInvariant : Prop := ∀ s t : State, s.Inv → step s = .next t → t.Inv

/-- From a state that meets the invariant no step stops: "every draw succeeds" (60_exceptions.md R120). -/
def Obligations.StepNeverStopsUnderTheInvariant : Prop := ∀ s : State, s.Inv → ∃ t, step s = .next t

/-- The controller's state machine (42_draw_tempering.md R111), over the conditions of 10_state.md R29, for a block in
its invariant with no response waiting. -/
def Obligations.ControllerFollowsTheTransitionTable : Prop := ∀ s : State, s.Inv → s.rsp = none →
  (s.condition ≠ .halted → ∀ v, ∃ t, exec (.seed v) s = .next t ∧ t.condition = .needsTwist) ∧
  (s.condition = .unseeded → ∃ t, exec .next s = .next t ∧ t.condition = .halted) ∧
  (s.condition = .needsTwist →
    ∃ t, exec .next s = .next t ∧ t.condition = .hasBufferedWords ∧ t.cursor.val = 1) ∧
  (s.condition = .hasBufferedWords → s.cursor.val ≤ 622 →
    ∃ t, exec .next s = .next t ∧ t.condition = .hasBufferedWords ∧ t.cursor.val = s.cursor.val + 1) ∧
  (s.condition = .hasBufferedWords → s.cursor.val = 623 →
    ∃ t, exec .next s = .next t ∧ t.condition = .needsTwist ∧ t.cursor.val = 624) ∧
  (s.condition = .halted → ∀ i, exec i s = .next s)

/-- `seeded` and `fault` are cleared by nothing but reset (10_state.md R25, R26). -/
def Obligations.OnlyResetClearsSeededAndFault : Prop := ∀ s t : State, step s = .next t →
  ((s.seeded = true ∧ t.seeded = false) ∨ (s.fault = true ∧ t.fault = false)) →
    ∃ e rest, s.edges = e :: rest ∧ e.rst = true

/-- The fault is raised by nothing but a NEXT presented while `cmd_ready = 1`, that is an accepted one
(30_encoding.md R69), with `seeded = 0` (60_exceptions.md R121). -/
def Obligations.OnlyNextBeforeSeedRaisesTheFault : Prop := ∀ s t : State, step s = .next t →
  s.fault = false → t.fault = true →
    ∃ e rest, s.edges = e :: rest ∧ e.rst = false ∧ e.cmdValid = true ∧ s.cmdReady = true ∧ decode e.cmd = .next ∧
      s.seeded = false ∧ t.faultCode = 0b01#2

/-- Which steps can change the array (10_state.md R32, 41_twist.md R90 "When"): a reset, an accepted SEED, or an
accepted NEXT that finds `cursor = 624` in a seeded block; a twist runs at no other time. -/
def Obligations.OnlyResetSeedAndTwistChangeWords : Prop := ∀ s t : State, step s = .next t → t.words ≠ s.words →
  ∃ e rest, s.edges = e :: rest ∧
    (e.rst = true ∨
      (e.cmdValid = true ∧ s.cmdReady = true ∧
        ((∃ v, decode e.cmd = .seed v) ∨ (decode e.cmd = .next ∧ s.seeded = true ∧ s.cursor.val = 624))))

/-! ## Headlines -/

/-- The closed form of the output sequence (42_draw_tempering.md R107, R108), through the ports: a host that presents
`SEED v` and then any number of NEXT words, whatever their operand fields, taking each response, is given exactly
`out_1(v), out_2(v), …`, and after draw `k` the cursor is `((k-1) mod 624) + 1`. The lists `edges` and `responses` are the
model's own (logs 3 and 4). -/
def Obligations.OutputSequenceIsTheClosedForm : Prop := ∀ (s : State) (v : Word) (cmds : List CmdWord),
  s.cmdReady = true → s.words.wf → (∀ c ∈ cmds, c.getLsbD 32 = false) →
  s.edges = presentEdge (encode (.seed v)) :: drawEdges cmds →
    ∃ t : State, Host.Core.run Sys2Proof.core (1 + 2 * cmds.length) s = .next t ∧ t.edges = [] ∧
      t.responses.map some =
        s.responses.map some ++ (List.range cmds.length).map (fun j => closedForm v (j + 1)) ∧
      (∀ j < cmds.length, (closedForm v (j + 1)).isSome = true) ∧
      t.cursor.val = if cmds.length = 0 then 624 else (cmds.length - 1) % 624 + 1

/-- "The state is fully recoverable from 624 consecutive outputs" (60_exceptions.md R130), for the 624 outputs of one
generation: two blocks about to twist that answer the same 624 draws with the same responses end with the same array.
The lists `edges` and `responses` are the model's own (logs 3 and 4). -/
def Obligations.GenerationIsRecoverableFromItsOutputs : Prop := ∀ (s₁ s₂ : State) (cmds : List CmdWord),
  s₁.Inv → s₂.Inv → s₁.seeded = true → s₂.seeded = true → s₁.cmdReady = true → s₂.cmdReady = true →
  s₁.cursor.val = 624 → s₂.cursor.val = 624 → s₁.responses = [] → s₂.responses = [] →
  cmds.length = 624 → (∀ c ∈ cmds, c.getLsbD 32 = false) → s₁.edges = drawEdges cmds → s₂.edges = drawEdges cmds →
    ∃ t₁ t₂ : State, Host.Core.run Sys2Proof.core (2 * cmds.length) s₁ = .next t₁ ∧
      Host.Core.run Sys2Proof.core (2 * cmds.length) s₂ = .next t₂ ∧ t₁.responses.length = 624 ∧
      (t₁.responses = t₂.responses → t₁.words = t₂.words)

/-- The concrete scenario of the source (95_test_vectors.md E1), three fixed commands: after SEED 1, from any accepting state
with a canonical array, the first NEXT
responds 1791095845 and, that response taken, the second responds 4282876139. -/
def Obligations.SeedOneGivesTheSourcesTwoOutputs : Prop := ∀ s : State, s.cmdReady = true → s.words.wf →
  ∃ t u w, exec (.seed 1#32) s = .next t ∧ exec .next t = .next u ∧ u.rsp = some 1791095845#32 ∧
    exec .next u.takeResponse = .next w ∧ w.rsp = some 4282876139#32
end

