-- ==== Sys2Proof/Laws/Memory.lean ====
section
/-! SUPPORT. The laws of the state array: a read after a write, what a write leaves alone, and that a write keeps the
canonical form. -/

namespace Sys2Proof.Machine

@[simp] theorem Memory.read_nil (i : Index) : Memory.read [] i = none := rfl

/-- A read of the index just written gives the word written. -/
@[simp] theorem Memory.read_write_same (m : Memory) (i : Index) (v : Word) : (m.write i v).read i = some v := by
  induction m with
  | nil => simp [Memory.write, Memory.read]
  | cons cell rest ih =>
    obtain ⟨j, w⟩ := cell
    simp only [Memory.write]
    split
    · simp [Memory.read]
    · split
      · simp [Memory.read]
      · next h => simp [Memory.read, Ne.symm h, ih]

/-- A write leaves every other index alone. -/
theorem Memory.read_write_other (m : Memory) {i j : Index} (v : Word) (h : j ≠ i) :
    (m.write i v).read j = m.read j := by
  induction m with
  | nil => simp [Memory.write, Memory.read, Ne.symm h]
  | cons cell rest ih =>
    obtain ⟨k, w⟩ := cell
    simp only [Memory.write]
    split
    · simp [Memory.read, Ne.symm h]
    · split
      · next hk => subst hk; simp [Memory.read, Ne.symm h]
      · simp [Memory.read, ih]

/-- Both laws in one: what a read gives after a write. -/
theorem Memory.read_write (m : Memory) (i j : Index) (v : Word) :
    (m.write i v).read j = if j = i then some v else m.read j := by
  split
  · next h => rw [h, Memory.read_write_same]
  · next h => exact Memory.read_write_other m v h

/-- The pairs of a written array are the new pair and old pairs. -/
theorem Memory.mem_write {m : Memory} {i : Index} {v : Word} {c : Index × Word} (h : c ∈ m.write i v) :
    c = (i, v) ∨ c ∈ m := by
  induction m with
  | nil => simp_all [Memory.write]
  | cons cell rest ih =>
    obtain ⟨k, w⟩ := cell
    simp only [Memory.write] at h
    split at h
    · simpa using h
    · split at h
      · rcases List.mem_cons.mp h with h | h
        · exact .inl h
        · exact .inr (List.mem_cons_of_mem _ h)
      · rcases List.mem_cons.mp h with h | h
        · exact .inr (h ▸ List.mem_cons_self)
        · rcases ih h with h | h
          · exact .inl h
          · exact .inr (List.mem_cons_of_mem _ h)

/-- The array with no pair is canonical. -/
@[simp] theorem Memory.wf_nil : Memory.wf [] := List.Pairwise.nil

/-- The state array is canonical after reset. -/
theorem State.reset_words_wf : State.reset.words.wf := Memory.wf_nil

/-- A write keeps the canonical form. -/
theorem Memory.write_wf {m : Memory} (h : m.wf) (i : Index) (v : Word) : (m.write i v).wf := by
  induction m with
  | nil => simp [Memory.write]
  | cons cell rest ih =>
    obtain ⟨k, w⟩ := cell
    obtain ⟨hk, hrest⟩ := List.pairwise_cons.mp h
    simp only [Memory.write]
    split
    · next hik =>
      refine List.pairwise_cons.mpr ⟨fun c hc => ?_, h⟩
      rcases List.mem_cons.mp hc with rfl | hc
      · exact hik
      · exact lt_trans hik (hk c hc)
    · split
      · next hik => exact List.pairwise_cons.mpr ⟨fun c hc => hik ▸ hk c hc, hrest⟩
      · next hlt hne =>
        refine List.pairwise_cons.mpr ⟨fun c hc => ?_, ih hrest⟩
        rcases Memory.mem_write hc with rfl | hc
        · exact lt_of_le_of_ne (not_lt.mp hlt) (Ne.symm hne)
        · exact hk c hc

/-- Every write of a populated array leaves it populated. -/
theorem Memory.write_populated {m : Memory} (h : m.populated) (i : Index) (v : Word) : (m.write i v).populated := by
  intro j
  rw [Memory.read_write]
  split
  · rfl
  · exact h j

/-- In a canonical array whose first index is above `i`, index `i` holds no value. -/
theorem Memory.read_eq_none_of_lt {m : Memory} {i : Index} (h : ∀ c ∈ m, i < c.1) : m.read i = none := by
  induction m with
  | nil => rfl
  | cons cell rest ih =>
    obtain ⟨j, w⟩ := cell
    have hj : j ≠ i := ne_of_gt (h (j, w) List.mem_cons_self)
    simp only [Memory.read, hj, if_false]
    exact ih fun c hc => h c (List.mem_cons_of_mem _ hc)

/-- Canonical arrays that read the same at every index are equal: equal memories are equal data. -/
theorem Memory.ext_of_wf {m n : Memory} (hm : m.wf) (hn : n.wf) (h : ∀ i, m.read i = n.read i) : m = n := by
  induction m generalizing n with
  | nil =>
    cases n with
    | nil => rfl
    | cons cell rest => simpa [Memory.read] using h cell.1
  | cons cell rest ih =>
    obtain ⟨j, w⟩ := cell
    obtain ⟨hj, hrest⟩ := List.pairwise_cons.mp hm
    cases n with
    | nil => simpa [Memory.read] using h j
    | cons cell' rest' =>
      obtain ⟨k, x⟩ := cell'
      obtain ⟨hk, hrest'⟩ := List.pairwise_cons.mp hn
      have hnone : Memory.read rest j = none := Memory.read_eq_none_of_lt hj
      have hnone' : Memory.read rest' k = none := Memory.read_eq_none_of_lt hk
      have hjk : j = k := by
        rcases lt_trichotomy j k with hlt | heq | hlt
        · have h1 := h j
          rw [Memory.read_eq_none_of_lt (m := (k, x) :: rest') (fun c hc => by
            rcases List.mem_cons.mp hc with rfl | hc
            · exact hlt
            · exact lt_trans hlt (hk c hc))] at h1
          simp [Memory.read] at h1
        · exact heq
        · have h1 := h k
          rw [Memory.read_eq_none_of_lt (m := (j, w) :: rest) (fun c hc => by
            rcases List.mem_cons.mp hc with rfl | hc
            · exact hlt
            · exact lt_trans hlt (hj c hc))] at h1
          simp [Memory.read] at h1
      subst hjk
      have hw : w = x := by simpa [Memory.read] using h j
      subst hw
      have htail : ∀ i, Memory.read rest i = Memory.read rest' i := by
        intro i
        by_cases hi : j = i
        · rw [← hi, hnone, hnone']
        · simpa [Memory.read, hi] using h i
      rw [ih hrest hrest' htail]

end Sys2Proof.Machine
end

