-- ==== Sys2Proof/Laws/Operands.lean ====
section
/-! SUPPORT. The values of the index expressions: every access is in range (20_memory.md R43). -/

namespace Sys2Proof.Machine

@[simp] theorem indexOf_val (n : Nat) : (indexOf n).val = n % 624 := rfl

/-- Every index is the index of its own number. -/
@[simp] theorem indexOf_self (i : Index) : indexOf i.val = i := by
  apply Fin.ext; simp [Nat.mod_eq_of_lt i.isLt]

/-- Different numbers below 624 are different indices: no two entries alias. -/
theorem indexOf_inj {a b : Nat} (ha : a < 624) (hb : b < 624) : indexOf a = indexOf b ↔ a = b := by
  constructor
  · intro h
    have := congrArg Fin.val h
    simpa [Nat.mod_eq_of_lt ha, Nat.mod_eq_of_lt hb] using this
  · rintro rfl; rfl

theorem nextIndex_of_lt {i : Nat} (h : i < 623) : nextIndex i = indexOf (i + 1) := by
  unfold nextIndex; rw [Nat.mod_eq_of_lt (by omega)]

theorem nextIndex_last : nextIndex 623 = indexOf 0 := rfl

theorem offsetIndex_of_lt {i : Nat} (h : i < 227) : offsetIndex i = indexOf (i + 397) := by
  unfold offsetIndex twistOffset; rw [Nat.mod_eq_of_lt (by omega)]

theorem offsetIndex_of_ge {i : Nat} (h : 227 ≤ i) (h' : i < 624) : offsetIndex i = indexOf (i - 227) := by
  have hmod : (i + 397) % 624 = i - 227 := by omega
  unfold offsetIndex twistOffset
  rw [hmod]

/-- A cursor below 624 is drawn from its own index. -/
theorem drawIndex_val {c : Cursor} (h : c ≠ 624) : (drawIndex c).val = c.val := by
  have : c.val ≠ 624 := fun hc => h (Fin.ext hc)
  have := c.isLt
  simp [drawIndex]; omega

/-- The cursor's increment from 0 to 623 does not wrap (10_state.md R24). -/
theorem cursor_succ_val {c : Cursor} (h : c ≠ 624) : (c + 1).val = c.val + 1 := by
  have : c.val ≠ 624 := fun hc => h (Fin.ext hc)
  have := c.isLt
  rw [Fin.val_add]; simp; omega

end Sys2Proof.Machine
end

