-- ==== Sys2Proof/Laws/State.lean ====
section
/-! SUPPORT. One lemma per field per update of State. -/

namespace Sys2Proof.Machine
variable (s : State) (m : Memory) (c : Cursor) (v : Word) (es : List Edge)

@[simp] theorem State.withWords_words : (s.withWords m).words = m := rfl
@[simp] theorem State.withWords_cursor : (s.withWords m).cursor = s.cursor := rfl
@[simp] theorem State.withWords_seeded : (s.withWords m).seeded = s.seeded := rfl
@[simp] theorem State.withWords_fault : (s.withWords m).fault = s.fault := rfl
@[simp] theorem State.withWords_faultCode : (s.withWords m).faultCode = s.faultCode := rfl
@[simp] theorem State.withWords_rsp : (s.withWords m).rsp = s.rsp := rfl
@[simp] theorem State.withWords_edges : (s.withWords m).edges = s.edges := rfl
@[simp] theorem State.withWords_responses : (s.withWords m).responses = s.responses := rfl

@[simp] theorem State.withCursor_words : (s.withCursor c).words = s.words := rfl
@[simp] theorem State.withCursor_cursor : (s.withCursor c).cursor = c := rfl
@[simp] theorem State.withCursor_seeded : (s.withCursor c).seeded = s.seeded := rfl
@[simp] theorem State.withCursor_fault : (s.withCursor c).fault = s.fault := rfl
@[simp] theorem State.withCursor_faultCode : (s.withCursor c).faultCode = s.faultCode := rfl
@[simp] theorem State.withCursor_rsp : (s.withCursor c).rsp = s.rsp := rfl
@[simp] theorem State.withCursor_edges : (s.withCursor c).edges = s.edges := rfl
@[simp] theorem State.withCursor_responses : (s.withCursor c).responses = s.responses := rfl

@[simp] theorem State.setSeeded_words : s.setSeeded.words = s.words := rfl
@[simp] theorem State.setSeeded_cursor : s.setSeeded.cursor = s.cursor := rfl
@[simp] theorem State.setSeeded_seeded : s.setSeeded.seeded = true := rfl
@[simp] theorem State.setSeeded_fault : s.setSeeded.fault = s.fault := rfl
@[simp] theorem State.setSeeded_faultCode : s.setSeeded.faultCode = s.faultCode := rfl
@[simp] theorem State.setSeeded_rsp : s.setSeeded.rsp = s.rsp := rfl
@[simp] theorem State.setSeeded_edges : s.setSeeded.edges = s.edges := rfl
@[simp] theorem State.setSeeded_responses : s.setSeeded.responses = s.responses := rfl

@[simp] theorem State.respond_words : (s.respond v).words = s.words := rfl
@[simp] theorem State.respond_cursor : (s.respond v).cursor = s.cursor := rfl
@[simp] theorem State.respond_seeded : (s.respond v).seeded = s.seeded := rfl
@[simp] theorem State.respond_fault : (s.respond v).fault = s.fault := rfl
@[simp] theorem State.respond_faultCode : (s.respond v).faultCode = s.faultCode := rfl
@[simp] theorem State.respond_rsp : (s.respond v).rsp = some v := rfl
@[simp] theorem State.respond_edges : (s.respond v).edges = s.edges := rfl
@[simp] theorem State.respond_responses : (s.respond v).responses = s.responses := rfl

@[simp] theorem State.withEdges_words : (s.withEdges es).words = s.words := rfl
@[simp] theorem State.withEdges_cursor : (s.withEdges es).cursor = s.cursor := rfl
@[simp] theorem State.withEdges_seeded : (s.withEdges es).seeded = s.seeded := rfl
@[simp] theorem State.withEdges_fault : (s.withEdges es).fault = s.fault := rfl
@[simp] theorem State.withEdges_faultCode : (s.withEdges es).faultCode = s.faultCode := rfl
@[simp] theorem State.withEdges_rsp : (s.withEdges es).rsp = s.rsp := rfl
@[simp] theorem State.withEdges_edges : (s.withEdges es).edges = es := rfl
@[simp] theorem State.withEdges_responses : (s.withEdges es).responses = s.responses := rfl

@[simp] theorem State.raiseDrawBeforeSeed_words : s.raiseDrawBeforeSeed.words = s.words := rfl
@[simp] theorem State.raiseDrawBeforeSeed_cursor : s.raiseDrawBeforeSeed.cursor = s.cursor := rfl
@[simp] theorem State.raiseDrawBeforeSeed_seeded : s.raiseDrawBeforeSeed.seeded = s.seeded := rfl
@[simp] theorem State.raiseDrawBeforeSeed_fault : s.raiseDrawBeforeSeed.fault = true := rfl
@[simp] theorem State.raiseDrawBeforeSeed_faultCode : s.raiseDrawBeforeSeed.faultCode = Config.codeDrawBeforeSeed := rfl
@[simp] theorem State.raiseDrawBeforeSeed_rsp : s.raiseDrawBeforeSeed.rsp = s.rsp := rfl
@[simp] theorem State.raiseDrawBeforeSeed_edges : s.raiseDrawBeforeSeed.edges = s.edges := rfl
@[simp] theorem State.raiseDrawBeforeSeed_responses : s.raiseDrawBeforeSeed.responses = s.responses := rfl

@[simp] theorem State.reset_words : State.reset.words = [] := rfl
@[simp] theorem State.reset_cursor : State.reset.cursor = Config.exhausted := rfl
@[simp] theorem State.reset_seeded : State.reset.seeded = false := rfl
@[simp] theorem State.reset_fault : State.reset.fault = false := rfl
@[simp] theorem State.reset_faultCode : State.reset.faultCode = Config.codeNone := rfl
@[simp] theorem State.reset_rsp : State.reset.rsp = none := rfl
@[simp] theorem State.reset_edges : State.reset.edges = [] := rfl
@[simp] theorem State.reset_responses : State.reset.responses = [] := rfl

@[simp] theorem State.resetBlock_words : s.resetBlock.words = [] := rfl
@[simp] theorem State.resetBlock_cursor : s.resetBlock.cursor = Config.exhausted := rfl
@[simp] theorem State.resetBlock_seeded : s.resetBlock.seeded = false := rfl
@[simp] theorem State.resetBlock_fault : s.resetBlock.fault = false := rfl
@[simp] theorem State.resetBlock_faultCode : s.resetBlock.faultCode = Config.codeNone := rfl
@[simp] theorem State.resetBlock_rsp : s.resetBlock.rsp = none := rfl
@[simp] theorem State.resetBlock_edges : s.resetBlock.edges = s.edges := rfl
@[simp] theorem State.resetBlock_responses : s.resetBlock.responses = [] := rfl

@[simp] theorem State.takeResponse_words : s.takeResponse.words = s.words := by
  unfold State.takeResponse; split <;> rfl
@[simp] theorem State.takeResponse_cursor : s.takeResponse.cursor = s.cursor := by
  unfold State.takeResponse; split <;> rfl
@[simp] theorem State.takeResponse_seeded : s.takeResponse.seeded = s.seeded := by
  unfold State.takeResponse; split <;> rfl
@[simp] theorem State.takeResponse_fault : s.takeResponse.fault = s.fault := by
  unfold State.takeResponse; split <;> rfl
@[simp] theorem State.takeResponse_faultCode : s.takeResponse.faultCode = s.faultCode := by
  unfold State.takeResponse; split <;> rfl
@[simp] theorem State.takeResponse_edges : s.takeResponse.edges = s.edges := by
  unfold State.takeResponse; split <;> rfl
@[simp] theorem State.takeResponse_rsp : s.takeResponse.rsp = none := by
  unfold State.takeResponse; split <;> simp_all
theorem State.takeResponse_responses : s.takeResponse.responses = s.responses ++ s.rsp.toList := by
  unfold State.takeResponse; split <;> simp_all

/-- `cmd_ready` says exactly: no fault, no response waiting. -/
theorem State.cmdReady_iff : s.cmdReady = true ↔ s.fault = false ∧ s.rsp = none := by
  simp [State.cmdReady]

end Sys2Proof.Machine
end

