-- ==== Sys2Proof/Laws/Meanings.lean ====
section
/-! SUPPORT. What each shared operation of the meanings can do, said once. -/

namespace Sys2Proof.Machine

theorem exec_next (s : State) : exec .next s = execNext s := rfl
theorem exec_seed (v : Word) (s : State) : exec (.seed v) s = execSeed v s := rfl

/-- A command that is not accepted leaves the state as it was. -/
theorem ifAccepted_of_not_ready {s : State} (h : s.cmdReady = false)
    (run : State → Host.Outcome State Fault Refusal) : ifAccepted s run = .next s := by simp [ifAccepted, h]

/-- No command has an effect while `cmd_ready = 0`. -/
theorem exec_of_not_ready {s : State} (h : s.cmdReady = false) (i : Instr) : exec i s = .next s := by
  cases i with
  | next => exact (ifAccepted_of_not_ready h _ : execNext s = _)
  | seed v => exact (ifAccepted_of_not_ready h _ : execSeed v s = _)

/-- An accepted command runs. -/
theorem ifAccepted_of_ready {s : State} (h : s.cmdReady = true) (run : State → Host.Outcome State Fault Refusal) :
    ifAccepted s run = run s := by simp [ifAccepted, h]

@[simp] theorem State.seedWith_words (s : State) (v : Word) : (s.seedWith v).words = seedWords v s.words := rfl
@[simp] theorem State.seedWith_cursor (s : State) (v : Word) : (s.seedWith v).cursor = Config.exhausted := rfl
@[simp] theorem State.seedWith_seeded (s : State) (v : Word) : (s.seedWith v).seeded = true := rfl
@[simp] theorem State.seedWith_fault (s : State) (v : Word) : (s.seedWith v).fault = s.fault := rfl
@[simp] theorem State.seedWith_faultCode (s : State) (v : Word) : (s.seedWith v).faultCode = s.faultCode := rfl
@[simp] theorem State.seedWith_rsp (s : State) (v : Word) : (s.seedWith v).rsp = s.rsp := rfl
@[simp] theorem State.seedWith_edges (s : State) (v : Word) : (s.seedWith v).edges = s.edges := rfl
@[simp] theorem State.seedWith_responses (s : State) (v : Word) : (s.seedWith v).responses = s.responses := rfl

/-- SEED, accepted. -/
theorem execSeed_of_ready {s : State} (h : s.cmdReady = true) (v : Word) : execSeed v s = .next (s.seedWith v) :=
  ifAccepted_of_ready h _

/-- The array a SEED leaves is what the pass of 623 steps after the first write leaves. -/
theorem seedWords_eq (v : Word) (m : Memory) : seedWords v m = (seedPass v 623 m).1 := by unfold seedWords; rfl

/-- A TWIST of the array is the pass of 624 steps. -/
theorem twistWords_eq (m : Memory) : twistWords m = twistPass 624 m := by unfold twistWords; rfl

/-- One more write of the seeding pass, from the word in the register `prev`. -/
theorem seedPass_succ (v : Word) (k : Nat) (m : Memory) :
    seedPass v (k + 1) m =
      ((seedPass v k m).1.write (indexOf (k + 1)) (seedNext (k + 1) (seedPass v k m).2),
        seedNext (k + 1) (seedPass v k m).2) := rfl

/-- A seeding pass keeps the canonical form. -/
theorem seedPass_wf (v : Word) (k : Nat) {m : Memory} (h : m.wf) : (seedPass v k m).1.wf := by
  induction k with
  | zero => exact Memory.write_wf h _ _
  | succ k ih => rw [seedPass_succ]; exact Memory.write_wf ih _ _

/-- The array a SEED leaves is canonical when the one before was. -/
theorem seedWords_wf (v : Word) {m : Memory} (h : m.wf) : (seedWords v m).wf := by
  rw [seedWords_eq]; exact seedPass_wf v 623 h

/-- A twist step that completes has read its three operands and written one word. -/
theorem twistStep_eq_some {i : Nat} {m n : Memory} :
    twistStep i m = some n ↔
      ∃ a b c, m.read (indexOf i) = some a ∧ m.read (nextIndex i) = some b ∧ m.read (offsetIndex i) = some c ∧
        n = m.write (indexOf i) (mix a b c) := by
  unfold twistStep
  split
  · next a b c ha hb hc => simp [ha, hb, hc, eq_comm]
  · next hno =>
    constructor
    · intro h; cases h
    · rintro ⟨a, b, c, ha, hb, hc, -⟩
      exact (hno a b c ha hb hc).elim

/-- A twist step of a populated array completes. -/
theorem twistStep_of_populated {m : Memory} (h : m.populated) (i : Nat) : ∃ n, twistStep i m = some n := by
  obtain ⟨a, ha⟩ := Option.isSome_iff_exists.mp (h (indexOf i))
  obtain ⟨b, hb⟩ := Option.isSome_iff_exists.mp (h (nextIndex i))
  obtain ⟨c, hc⟩ := Option.isSome_iff_exists.mp (h (offsetIndex i))
  exact ⟨_, twistStep_eq_some.mpr ⟨a, b, c, ha, hb, hc, rfl⟩⟩

/-- One more step of the twist pass, on what the earlier steps have left. -/
theorem twistPass_succ_eq_some {k : Nat} {m n : Memory} :
    twistPass (k + 1) m = some n ↔ ∃ l, twistPass k m = some l ∧ twistStep k l = some n := by
  simp only [twistPass]
  cases twistPass k m <;> simp

/-- A twist pass keeps the canonical form. -/
theorem twistPass_wf {k : Nat} {m n : Memory} (h : m.wf) (hn : twistPass k m = some n) : n.wf := by
  induction k generalizing n with
  | zero => simp only [twistPass, Option.some.injEq] at hn; exact hn ▸ h
  | succ k ih =>
    obtain ⟨l, hl, hs⟩ := twistPass_succ_eq_some.mp hn
    obtain ⟨a, b, c, -, -, -, rfl⟩ := twistStep_eq_some.mp hs
    exact Memory.write_wf (ih hl) _ _

/-- A twist keeps the canonical form. -/
theorem twistWords_wf {m n : Memory} (h : m.wf) (hn : twistWords m = some n) : n.wf := by
  rw [twistWords_eq] at hn; exact twistPass_wf h hn

/-- A twist pass of a populated array completes and leaves a populated array. -/
theorem twistPass_of_populated {m : Memory} (h : m.populated) (k : Nat) :
    ∃ n, twistPass k m = some n ∧ n.populated := by
  induction k with
  | zero => exact ⟨m, rfl, h⟩
  | succ k ih =>
    obtain ⟨l, hl, hp⟩ := ih
    obtain ⟨a, ha⟩ := Option.isSome_iff_exists.mp (hp (indexOf k))
    obtain ⟨b, hb⟩ := Option.isSome_iff_exists.mp (hp (nextIndex k))
    obtain ⟨c, hc⟩ := Option.isSome_iff_exists.mp (hp (offsetIndex k))
    exact ⟨_, twistPass_succ_eq_some.mpr ⟨l, hl, twistStep_eq_some.mpr ⟨a, b, c, ha, hb, hc, rfl⟩⟩,
      Memory.write_populated hp _ _⟩

/-- What a draw from `words[cursor]` can do. -/
theorem drawWord_cases (s : State) :
    (∃ y, s.words.read (drawIndex s.cursor) = some y ∧
      drawWord s = .next ((s.withCursor (s.cursor + 1)).respond (temper y))) ∨
    (s.words.read (drawIndex s.cursor) = none ∧ drawWord s = .fault .unspecifiedWord) := by
  unfold drawWord
  split
  · next y hy => exact .inl ⟨y, hy, rfl⟩
  · next hy => exact .inr ⟨hy, rfl⟩

/-- What a TWIST on the state can do. -/
theorem State.twist_eq_some {s t : State} :
    s.twist = some t ↔ ∃ m, twistWords s.words = some m ∧ t = (s.withWords m).withCursor 0 := by
  unfold State.twist
  cases twistWords s.words <;> simp [eq_comm]

/-- Everything NEXT can do: not accepted, the fault, a draw from the current generation, a twist and then a draw, or
the model's stop at an entry that holds no value. -/
theorem execNext_cases (s : State) :
    (s.cmdReady = false ∧ execNext s = .next s) ∨
    (s.cmdReady = true ∧ s.seeded = false ∧ execNext s = .next s.raiseDrawBeforeSeed) ∨
    (s.cmdReady = true ∧ s.seeded = true ∧ s.cursor ≠ Config.exhausted ∧ execNext s = drawWord s) ∨
    (s.cmdReady = true ∧ s.seeded = true ∧ s.cursor = Config.exhausted ∧ ∃ m, twistWords s.words = some m ∧
      execNext s = drawWord ((s.withWords m).withCursor 0)) ∨
    (s.cmdReady = true ∧ s.seeded = true ∧ s.cursor = Config.exhausted ∧ twistWords s.words = none ∧
      execNext s = .fault .unspecifiedWord) := by
  unfold execNext ifAccepted drawLazily State.twist
  cases hr : s.cmdReady with
  | false => simp
  | true =>
    cases hs : s.seeded with
    | false => simp [hs]
    | true =>
      by_cases hc : s.cursor = Config.exhausted
      · cases hm : twistWords s.words <;> simp [hs, hc, hm]
      · simp [hs, hc]

/-- What a draw does does not depend on what the host drives next, and does not touch it. -/
theorem drawWord_withEdges {s t : State} (h : drawWord s = .next t) (es : List Edge) :
    drawWord (s.withEdges es) = .next (t.withEdges es) := by
  rcases drawWord_cases s with ⟨y, hy, hd⟩ | ⟨-, hd⟩
  · rw [hd] at h
    cases h
    have : (s.withEdges es).words.read (drawIndex (s.withEdges es).cursor) = some y := hy
    unfold drawWord
    rw [this]
    rfl
  · rw [hd] at h; cases h

/-- The same of the lazy twist and the draw together. -/
theorem drawLazily_withEdges {s t : State} (h : drawLazily s = .next t) (es : List Edge) :
    drawLazily (s.withEdges es) = .next (t.withEdges es) := by
  by_cases hc : s.cursor = Config.exhausted
  · have hc' : (s.withEdges es).cursor = Config.exhausted := hc
    cases hm : twistWords s.words with
    | none => simp [drawLazily, hc, State.twist, hm] at h
    | some m =>
      have hm' : twistWords (s.withEdges es).words = some m := hm
      simp only [drawLazily, hc, hc', if_true, State.twist, hm, hm'] at h ⊢
      exact drawWord_withEdges h es
  · have hc' : ¬ (s.withEdges es).cursor = Config.exhausted := hc
    simp only [drawLazily, hc, hc', if_false] at h ⊢
    exact drawWord_withEdges h es

/-- What a command does does not depend on what the host drives next, and does not touch it. -/
theorem exec_withEdges {i : Instr} {s t : State} (h : exec i s = .next t) (es : List Edge) :
    exec i (s.withEdges es) = .next (t.withEdges es) := by
  cases hr : s.cmdReady with
  | false =>
    rw [exec_of_not_ready hr] at h
    cases h
    exact exec_of_not_ready (s := s.withEdges es) hr i
  | true =>
    cases i with
    | seed v =>
      rw [exec_seed, execSeed_of_ready hr] at h
      cases h
      exact execSeed_of_ready (s := s.withEdges es) hr v
    | next =>
      have run (es : List Edge) : exec .next (s.withEdges es) =
          if s.seeded then drawLazily (s.withEdges es) else .next (s.withEdges es).raiseDrawBeforeSeed :=
        (ifAccepted_of_ready (s := s.withEdges es) hr _ : execNext (s.withEdges es) = _)
      have self : exec .next s = if s.seeded then drawLazily s else .next s.raiseDrawBeforeSeed :=
        (ifAccepted_of_ready hr _ : execNext s = _)
      rw [self] at h
      rw [run]
      cases hs : s.seeded with
      | false => rw [hs] at h; cases h; rfl
      | true =>
        simp only [hs, if_true] at h ⊢
        exact drawLazily_withEdges h es

end Sys2Proof.Machine
end

