-- ==== Sys2Proof/Laws/PerInstr.lean ====
section
/-! SUPPORT. Per-instruction statements about the command as syntax. -/

namespace Sys2Proof.Laws

/-- The opcode bit of a command's word tells the two commands apart: 1 for SEED, 0 for NEXT (30_encoding.md R62). -/
def OpcodeBit.Statement : Instr → Prop
  | .next => opBit (encode .next) = false
  | .seed value => opBit (encode (.seed value)) = true

theorem OpcodeBit.next : OpcodeBit.Statement .next := by
  show opBit (0#33) = false
  decide

theorem OpcodeBit.seed (value : Word) : OpcodeBit.Statement (.seed value) := by
  show opBit (seedOpcode ||| value.setWidth 33) = true
  simp [opBit, seedOpcode]

end Sys2Proof.Laws
end

