-- ==== Sys2Proof/Laws/Step.lean ====
section
/-! SUPPORT. What one clock edge can do, said once. -/

namespace Sys2Proof.Machine

theorem step_no_edge {s : State} (h : s.edges = []) : step s = .next s := by
  simp [step, stepPorts, h]

theorem step_edge {s : State} {e : Edge} {rest : List Edge} (h : s.edges = e :: rest) :
    step s = edgeStep e (s.withEdges rest) := by
  simp [step, stepPorts, h]

/-- Everything an edge can do: a reset, an accepted command, a response taken, or nothing. -/
theorem edgeStep_cases (e : Edge) (s : State) :
    (e.rst = true ∧ edgeStep e s = .next s.resetBlock) ∨
    (e.rst = false ∧ e.cmdValid = true ∧ s.cmdReady = true ∧ edgeStep e s = exec (decode e.cmd) s) ∨
    (e.rst = false ∧ (e.cmdValid = true → s.cmdReady = false) ∧ e.rspReady = true ∧
      edgeStep e s = .next s.takeResponse) ∨
    (e.rst = false ∧ (e.cmdValid = true → s.cmdReady = false) ∧ e.rspReady = false ∧ edgeStep e s = .next s) := by
  unfold edgeStep
  cases e.rst <;> cases e.cmdValid <;> cases s.cmdReady <;> cases e.rspReady <;> simp

/-- The first of several steps of a run, when it answers a next state. -/
theorem run_of_step {s t : State} (h : step s = .next t) (n : Nat) :
    Host.Core.run Sys2Proof.core (n + 1) s = Host.Core.run Sys2Proof.core n t := by
  simp only [Host.Core.run]
  rw [show Sys2Proof.core.step s = .next t from h]

/-- Moving the host's edges aside changes nothing the block looks at. -/
@[simp] theorem State.withEdges_cmdReady (s : State) (es : List Edge) : (s.withEdges es).cmdReady = s.cmdReady := rfl

/-- Presenting a command word puts it at the head of the host's edges. -/
theorem State.present_edges (s : State) (cmd : CmdWord) : (s.present cmd).edges = presentEdge cmd :: s.edges := rfl

end Sys2Proof.Machine
end

