-- ==== Sys2Proof/Tests/Slice0.lean ====
section
/-! SUPPORT. Tests of the model against the spec's vectors (95_test_vectors.md), and a witness for the hypotheses of
each statement. -/

namespace Sys2Proof.Tests
open Sys2Proof.Machine

/-! ## Well-formedness smoke: each check refuses an ill-formed term. An `Instr` has no ill-formed term (R63, R67). -/

theorem test_wf_refuses_34_bits : CmdWord.fits 0x200000000 = false ∧ CmdWord.fits 0x1FFFFFFFF = true := by decide
theorem test_wf_refuses_wide_seed : Word.fits 4294967296 = false ∧ Word.fits 4294967295 = true := by decide
theorem test_wf_refuses_nine_hex_digits :
    hexValueLengthOk 9 = false ∧ hexValueLengthOk 0 = false ∧ hexValueLengthOk 8 = true := by decide
theorem test_wf_every_command (i : Instr) : i.wellFormed = true := by cases i <;> rfl

/-- A number wider than a command word is refused by name. -/
theorem test_decode_number_too_wide : decodeNumber 0x200000000 = .error .widerThanCommandWord := by decide

/-- A listing's `SEED 4294967296`, a lower-case mnemonic, and an encoding column that says another command are refused. -/
theorem test_listing_refuses :
    parseLine ['S', 'E', 'E', 'D', ' ', '4', '2', '9', '4', '9', '6', '7', '2', '9', '6'] = none ∧
    parseLine ['n', 'e', 'x', 't'] = none ∧
    parseLine ['1', '_', '0', '0', '0', '0', '0', '0', '0', '0', ' ', 'N', 'E', 'X', 'T'] = none := by decide

/-! ## Decoding, from words written out bit by bit (R62, R64; V7) -/

theorem test_decode_next_bits : decode 0b011011110101011011011111011101111#33 = .next := by decide
theorem test_decode_seed_bits : decode 0b100000000000000000001010101110001#33 = .seed 5489#32 := by decide
theorem test_decode_seed_top_bit_is_data : decode 0b110000000000000000000000000000000#33 = .seed 0x80000000#32 := by decide
theorem test_decode_table_words :
    decodeTableWord 40 0x0DEADBEEF = some .next ∧ decodeTableWord 40 0x1DEADBEEF = some (.seed 0xDEADBEEF#32) := by decide

/-! ## SEED, TWIST, TEMPER, NEXT against the vectors -/

/-- V1, rows 1, 0xFFFFFFFF and 0x80000000: the product wraps and `prev >> 30` is 1, 3 and 2. -/
theorem test_seed_recurrence :
    seedNext 1 1#32 = 0x6C078966#32 ∧ seedNext 2 0x6C078966#32 = 0xDD5254A5#32 ∧
    seedNext 1 0xFFFFFFFF#32 = 0x4FE1DA6D#32 ∧ seedNext 1 0x80000000#32 = 0x580F12CB#32 := by decide

/-- V1, row 1: the first writes of SEED 1 over an array that held something else. -/
theorem test_seed_first_writes :
    (seedPass 1#32 2 [(0, 7#32), (5, 9#32)]).1 =
      [(0, 1#32), (1, 0x6C078966#32), (2, 0xDD5254A5#32), (5, 9#32)] := by decide

/-- V3 row 0 of SEED 1 (`y` even). -/
theorem test_twist_step_0 :
    twistStep 0 [(0, 0x00000001#32), (1, 0x6C078966#32), (397, 0xAAB7BE29#32)] =
      some [(0, 0x9CB47A9A#32), (1, 0x6C078966#32), (397, 0xAAB7BE29#32)] := by decide

/-- V3 row 227 of SEED 1 (`y` odd, third operand the new word 0) and row 623 (second operand the new word 0). -/
theorem test_twist_steps_227_623 :
    twistStep 227 [(0, 0x9CB47A9A#32), (227, 0x804DFC5F#32), (228, 0x7D5D5695#32)] =
      some [(0, 0x9CB47A9A#32), (227, 0x7B12610F#32), (228, 0x7D5D5695#32)] ∧
    twistStep 623 [(0, 0x9CB47A9A#32), (396, 0x08A21E14#32), (623, 0x7B5687A5#32)] =
      some [(0, 0x9CB47A9A#32), (396, 0x08A21E14#32), (623, 0x06F82359#32)] := by decide

/-- V4: step by step for the first raw word of SEED 1. -/
theorem test_temper_steps :
    temper1 0x9CB47A9A#32 = 0x9CA7EC15#32 ∧ temper2 0x9CA7EC15#32 = 0x8D83EE95#32 ∧
    temper3 0x8D83EE95#32 = 0x6AC1EE95#32 ∧ temper4 0x6AC1EE95#32 = 0x6AC1F425#32 := by decide

/-- V4, the one-bit rows where the clauses of R104 meet: j = 0, 6, 7, 13, 14, 15, 20, 21, 31. -/
theorem test_temper_one_bit_rows :
    temper (1#32 <<< 0) = 0x00400091#32 ∧ temper (1#32 <<< 6) = 0x00000040#32 ∧
    temper (1#32 <<< 7) = 0x20404890#32 ∧ temper (1#32 <<< 13) = 0x01022244#32 ∧
    temper (1#32 <<< 14) = 0x22244C81#32 ∧ temper (1#32 <<< 15) = 0x40009010#32 ∧
    temper (1#32 <<< 20) = 0x09100044#32 ∧ temper (1#32 <<< 21) = 0x12200088#32 ∧
    temper (1#32 <<< 31) = 0x88102204#32 := by decide

/-- V6 row 1 and P5: NEXT from reset faults, `status = 0b0110`, no response, the cursor still 624. -/
theorem test_next_before_seed :
    ∃ t, step (State.reset.withFetchWord 40 0x0) = .next t ∧ t.status = 0b0110#4 ∧ t.rsp = none ∧ t.cursor.val = 624 ∧
      t.condition = .halted ∧ t.cmdReady = false := ⟨_, rfl, by decide, rfl, rfl, rfl, rfl⟩

/-- V6: a draw leaves its word in the array; here `words[1]` of generation 1 of SEED 1. -/
theorem test_next_draws :
    exec .next { State.reset with words := [(1, 0xB1D19108#32)], cursor := 1, seeded := true } =
      .next { State.reset with words := [(1, 0xB1D19108#32)], cursor := 2, seeded := true, rsp := some 4282876139#32 } := by
  rfl

/-! ## States for the witnesses -/

/-- An array with the same word everywhere (irreducible: no test runs through its 624 cells). -/
@[irreducible] def filled (v : Word) : Memory := (List.finRange 624).map fun i => (i, v)

theorem read_map_const (v : Word) (l : List Index) (i : Index) (h : i ∈ l) :
    Memory.read (l.map fun j => (j, v)) i = some v := by
  induction l with
  | nil => cases h
  | cons j rest ih =>
    simp only [List.map_cons, Memory.read]
    split
    · rfl
    · next hne => exact ih ((List.mem_cons.mp h).resolve_left (Ne.symm hne))

theorem filled_read (v : Word) (i : Index) : (filled v).read i = some v := by
  unfold filled
  exact read_map_const v (List.finRange 624) i (List.mem_finRange i)

theorem filled_wf (v : Word) : (filled v).wf := by
  unfold Memory.wf filled
  rw [List.pairwise_map]
  exact List.pairwise_lt_finRange 624

theorem filled_populated (v : Word) : (filled v).populated := fun i => by rw [filled_read]; rfl

/-- A seeded block between commands. -/
def seededAt (c : Cursor) : State := { State.reset with words := filled 1#32, cursor := c, seeded := true }

/-- A seeded block whose response from `words[0]` waits. -/
def waiting : State := { seededAt 1 with rsp := some (temper 1#32) }

/-- The block after DrawBeforeSeed. -/
def halted : State := { State.reset with fault := true, faultCode := 0b01#2 }

theorem seededAt_inv (c : Cursor) (h : c ≠ 0) : (seededAt c).Inv where
  array := ⟨filled_wf 1#32, fun _ => filled_populated 1#32⟩
  fault := ⟨rfl, (nomatch ·)⟩
  draw := ⟨(nomatch ·), (nomatch ·), (nomatch ·), h, fun _ => (nomatch ·)⟩

theorem waiting_inv : waiting.Inv where
  array := ⟨filled_wf 1#32, fun _ => filled_populated 1#32⟩
  fault := ⟨rfl, (nomatch ·)⟩
  draw := ⟨(nomatch ·), (nomatch ·), (nomatch ·), by decide,
    fun v hv => ⟨1#32, filled_read 1#32 _, (Option.some.inj hv).symm⟩⟩

theorem halted_inv : halted.Inv where
  array := ⟨List.Pairwise.nil, (nomatch ·)⟩
  fault := ⟨rfl, fun _ => rfl⟩
  draw := ⟨fun _ => rfl, fun _ => rfl, fun _ => rfl, by decide, fun _ => (nomatch ·)⟩

theorem unseeded_inv (es : List Edge) : (State.reset.withEdges es).Inv where
  array := ⟨List.Pairwise.nil, (nomatch ·)⟩
  fault := ⟨rfl, (nomatch ·)⟩
  draw := ⟨fun _ => rfl, fun _ => rfl, fun _ => rfl, (by decide : Config.exhausted ≠ 0), fun _ => (nomatch ·)⟩

/-- The edge at which reset is asserted, whatever else the host drives. -/
def resetEdge : Edge := { rst := true, cmdValid := true, cmd := 0x100000001#33, rspReady := true }

/-! ## Witnesses: each statement's hypotheses, met together by concrete data -/

theorem witness_EncodeOfDecodedSeedWordIsTheWord :
    (0x100000000#33).getLsbD 32 = true ∧ (0x1FFFFFFFF#33).getLsbD 32 = true := by decide

theorem witness_StepRunsTheAcceptedCommand : ∃ s e rest,
    s = State.reset.present 0x100000001#33 ∧ s.edges = e :: rest ∧ e.rst = false ∧ e.cmdValid = true ∧
      s.cmdReady = true := ⟨_, _, _, rfl, rfl, rfl, rfl, rfl⟩

theorem witness_PlacedWordRunsAtTheNextStep :
    waiting.fault = false ∧ 0x100000001 < 2 ^ 40 ∧ 0x100000001 < 2 ^ 33 := by decide

theorem witness_UnacceptedCommandHasNoEffect : halted.fault = true ∧ waiting.rsp ≠ none := by decide

theorem witness_IdleBlockHoldsItsState : (seededAt 5).edges = [] := rfl

theorem witness_ResetEdgeGivesTheResetState : ∃ s e rest,
    s = waiting.withEdges [resetEdge] ∧ s.edges = e :: rest ∧ e.rst = true := ⟨_, _, _, rfl, rfl, rfl⟩

/-- Both clauses: an edge that leaves the response and one that takes it. -/
theorem witness_ResponseIsHeldUntilTaken :
    (∃ s v e rest, s = waiting.withEdges [presentEdge 0#33] ∧ s.rsp = some v ∧ s.edges = e :: rest ∧ e.rst = false ∧
      e.rspReady = false) ∧
    (∃ s v e rest, s = waiting.withEdges [takeEdge] ∧ s.rsp = some v ∧ s.edges = e :: rest ∧ e.rst = false ∧
      e.rspReady = true) :=
  ⟨⟨_, _, _, _, rfl, rfl, rfl, rfl, rfl⟩, ⟨_, _, _, _, rfl, rfl, rfl, rfl, rfl⟩⟩

/-- SEED is accepted in UNSEEDED, HAS_BUFFERED_WORDS and NEEDS_TWIST, on canonical arrays; for
SeedFillsTheArrayByTheRecurrence, SeedCompletesInNeedsTwist, SeedIgnoresThePriorState, SecondSeedOverwritesTheFirst and
SeedOneGivesTheSourcesTwoOutputs. -/
theorem witness_seed_statements :
    State.reset.cmdReady = true ∧ (seededAt 5).cmdReady = true ∧ (seededAt 624).cmdReady = true ∧
    State.reset.words.wf ∧ (seededAt 5).words.wf ∧ (seededAt 624).words.wf :=
  ⟨rfl, rfl, rfl, List.Pairwise.nil, filled_wf 1#32, filled_wf 1#32⟩

theorem witness_SeedWritesAreTheOneSweepForm : (filled 1#32).wf := filled_wf 1#32

/-- V3 rows 0 and 623: the two ends of the index range. -/
theorem witness_TwistStepIsThePerIndexTransition :
    (∃ m : Memory, m = [(0, 0x00000001#32), (1, 0x6C078966#32), (397, 0xAAB7BE29#32)] ∧
      m.read (indexOf 0) = some 0x00000001#32 ∧ m.read (indexOf ((0 + 1) % 624)) = some 0x6C078966#32 ∧
      m.read (indexOf ((0 + 397) % 624)) = some 0xAAB7BE29#32) ∧
    (∃ m : Memory, m = [(0, 0x9CB47A9A#32), (396, 0x08A21E14#32), (623, 0x7B5687A5#32)] ∧
      m.read (indexOf 623) = some 0x7B5687A5#32 ∧ m.read (indexOf ((623 + 1) % 624)) = some 0x9CB47A9A#32 ∧
      m.read (indexOf ((623 + 397) % 624)) = some 0x08A21E14#32) :=
  ⟨⟨_, rfl, rfl, rfl, rfl⟩, ⟨_, rfl, rfl, rfl, rfl⟩⟩

/-- An array that holds a word at every index; the ranges of the table meet at 226, 227, 622 and 623, each in one. -/
theorem witness_TwistIsTheOldNewTable :
    (∀ i, i < 624 → (filled 1#32).read (indexOf i) = some ((fun _ => 1#32) i)) ∧
    (0 ≤ 226 ∧ 226 ≤ 226 ∧ ¬ 227 ≤ 226) ∧ (227 ≤ 227 ∧ 227 ≤ 622 ∧ ¬ 227 ≤ 226) ∧ (227 ≤ 622 ∧ ¬ 623 ≤ 622) :=
  ⟨fun _ _ => filled_read 1#32 _, by decide, by decide, by decide⟩

/-- Two arrays that differ in bits 30:0 of `words[0]`. -/
theorem witness_TwistIgnoresLowBitsOfWordZero :
    (filled 1#32).populated ∧ (∀ i : Index, i ≠ 0 → (filled 1#32).read i = ((filled 1#32).write 0 0x7FFFFFFF#32).read i) ∧
    (filled 1#32).read 0 = some 1#32 ∧ ((filled 1#32).write 0 0x7FFFFFFF#32).read 0 = some 0x7FFFFFFF#32 ∧
    (1#32).getLsbD 31 = (0x7FFFFFFF#32).getLsbD 31 :=
  ⟨filled_populated _, fun _ h => (Memory.read_write_other _ _ h).symm, filled_read _ _, Memory.read_write_same _ _ _,
    by decide⟩

theorem witness_TwistOfZerosIsZeros : ∀ i : Index, (filled 0#32).read i = some 0#32 := filled_read 0#32

/-- V4 row 0x9CB47A9A. -/
theorem witness_TemperIsTheFourSteps :
    0x9CA7EC15#32 = 0x9CB47A9A#32 ^^^ (0x9CB47A9A#32 >>> 11) ∧
    0x8D83EE95#32 = 0x9CA7EC15#32 ^^^ ((0x9CA7EC15#32 <<< 7) &&& 0x9D2C5680#32) ∧
    0x6AC1EE95#32 = 0x8D83EE95#32 ^^^ ((0x8D83EE95#32 <<< 15) &&& 0xEFC60000#32) ∧
    0x6AC1F425#32 = 0x6AC1EE95#32 ^^^ (0x6AC1EE95#32 >>> 18) := by decide

theorem witness_TemperIsInjective : temper 0xFFFFFFFF#32 = temper 0xFFFFFFFF#32 := rfl

/-- The two ends of the cursor's drawing range. -/
theorem witness_NextDrawsTheBufferedWord :
    ((seededAt 0).cmdReady = true ∧ (seededAt 0).seeded = true ∧ (seededAt 0).cursor.val ≤ 623 ∧
      (seededAt 0).words.read (indexOf (seededAt 0).cursor.val) = some 1#32) ∧
    ((seededAt 623).cmdReady = true ∧ (seededAt 623).seeded = true ∧ (seededAt 623).cursor.val ≤ 623 ∧
      (seededAt 623).words.read (indexOf (seededAt 623).cursor.val) = some 1#32) :=
  ⟨⟨rfl, rfl, by decide, filled_read _ _⟩, ⟨rfl, rfl, by decide, filled_read _ _⟩⟩

theorem witness_NextTwistsThenDraws :
    (seededAt 624).cmdReady = true ∧ (seededAt 624).seeded = true ∧ (seededAt 624).cursor.val = 624 ∧
    (seededAt 624).words.populated := ⟨rfl, rfl, rfl, filled_populated _⟩

theorem witness_NextBeforeSeedTakesTheFault : State.reset.cmdReady = true ∧ State.reset.seeded = false := ⟨rfl, rfl⟩

theorem witness_HaltedIsLeftOnlyByReset : ∃ s e rest,
    s = halted.withEdges [presentEdge 0x100000001#33] ∧ s.fault = true ∧ s.edges = e :: rest ∧ e.rst = false :=
  ⟨_, _, _, rfl, rfl, rfl, rfl⟩

/-- States that meet the invariant: seeded, unseeded, halted, and with a response waiting. -/
theorem witness_StepKeepsTheInvariant :
    waiting.Inv ∧ step waiting = .next waiting ∧ (State.reset.withEdges [takeEdge]).Inv ∧ halted.Inv ∧
    (seededAt 624).Inv :=
  ⟨waiting_inv, rfl, unseeded_inv _, halted_inv, seededAt_inv 624 (by decide)⟩

theorem witness_StepNeverStopsUnderTheInvariant : ((seededAt 624).present 0#33).Inv :=
  ⟨⟨filled_wf _, fun _ => filled_populated _⟩, ⟨rfl, (nomatch ·)⟩,
    ⟨(nomatch ·), (nomatch ·), (nomatch ·), by decide, fun _ => (nomatch ·)⟩⟩

/-- Each row of the transition table, at the ends of the cursor's range. -/
theorem witness_ControllerFollowsTheTransitionTable :
    (halted.Inv ∧ halted.rsp = none ∧ halted.condition = .halted) ∧
    ((State.reset.withEdges []).Inv ∧ (State.reset.withEdges []).rsp = none ∧
      (State.reset.withEdges []).condition = .unseeded) ∧
    ((seededAt 624).Inv ∧ (seededAt 624).rsp = none ∧ (seededAt 624).condition = .needsTwist) ∧
    ((seededAt 1).Inv ∧ (seededAt 1).rsp = none ∧ (seededAt 1).condition = .hasBufferedWords) ∧
    ((seededAt 622).Inv ∧ (seededAt 622).condition = .hasBufferedWords ∧ (seededAt 622).cursor.val ≤ 622) ∧
    ((seededAt 623).Inv ∧ (seededAt 623).condition = .hasBufferedWords ∧ (seededAt 623).cursor.val = 623) :=
  ⟨⟨halted_inv, rfl, rfl⟩, ⟨unseeded_inv _, rfl, rfl⟩, ⟨seededAt_inv _ (by decide), rfl, rfl⟩,
    ⟨seededAt_inv _ (by decide), rfl, rfl⟩, ⟨seededAt_inv _ (by decide), rfl, by decide⟩,
    ⟨seededAt_inv _ (by decide), rfl, rfl⟩⟩

theorem witness_OnlyResetClearsSeededAndFault :
    (∃ s t, s = (seededAt 5).withEdges [resetEdge] ∧ step s = .next t ∧ s.seeded = true ∧ t.seeded = false) ∧
    (∃ s t, s = halted.withEdges [resetEdge] ∧ step s = .next t ∧ s.fault = true ∧ t.fault = false) :=
  ⟨⟨_, _, rfl, rfl, rfl, rfl⟩, ⟨_, _, rfl, rfl, rfl, rfl⟩⟩

theorem witness_OnlyNextBeforeSeedRaisesTheFault : ∃ s t,
    s = State.reset.present 0#33 ∧ step s = .next t ∧ s.fault = false ∧ t.fault = true := ⟨_, _, rfl, rfl, rfl, rfl⟩

theorem witness_OnlyResetSeedAndTwistChangeWords : ∃ s t,
    s = (seededAt 5).withEdges [resetEdge] ∧ step s = .next t ∧ t.words ≠ s.words :=
  ⟨_, _, rfl, rfl, fun h => by
    have := congrArg (fun m => Memory.read m 0) h
    simp [seededAt, filled_read] at this⟩

/-- The hypotheses of OutputSequenceIsTheClosedForm for a host that draws with the words `cmds` after SEED 1. -/
theorem output_sequence_hypotheses (cmds : List CmdWord) (h : ∀ c ∈ cmds, c.getLsbD 32 = false) :
    ∃ s : State, s.cmdReady = true ∧ s.words.wf ∧ (∀ c ∈ cmds, c.getLsbD 32 = false) ∧
      s.edges = presentEdge (encode (.seed 1#32)) :: drawEdges cmds :=
  ⟨(seededAt 7).withEdges (presentEdge (encode (.seed 1#32)) :: drawEdges cmds), rfl, filled_wf _, h, rfl⟩

/-- No NEXT at all; two NEXT words, one with a non-zero operand field; and 624 and 625 NEXT words, the two sides of the
twist boundary. -/
theorem witness_OutputSequenceIsTheClosedForm : ∀ cmds ∈
    [[], [0#33, 0x0DEADBEEF#33], List.replicate 624 0#33, List.replicate 625 0#33],
    ∃ s : State, s.cmdReady = true ∧ s.words.wf ∧ (∀ c ∈ cmds, c.getLsbD 32 = false) ∧
      s.edges = presentEdge (encode (.seed 1#32)) :: drawEdges cmds := by
  have draws (n : Nat) : ∀ c ∈ List.replicate n 0#33, c.getLsbD 32 = false := fun c hc => by
    rw [List.eq_of_mem_replicate hc]; decide
  intro cmds hm
  refine output_sequence_hypotheses cmds ?_
  simp only [List.mem_cons, List.not_mem_nil, or_false] at hm
  rcases hm with rfl | rfl | rfl | rfl
  · simp
  · simp
  · exact draws 624
  · exact draws 625

theorem witness_GenerationIsRecoverableFromItsOutputs : ∃ (s : State) (cmds : List CmdWord),
    s.Inv ∧ s.seeded = true ∧ s.cmdReady = true ∧ s.cursor.val = 624 ∧ s.responses = [] ∧ cmds.length = 624 ∧
    (∀ c ∈ cmds, c.getLsbD 32 = false) ∧ s.edges = drawEdges cmds :=
  ⟨(seededAt 624).withEdges (drawEdges (List.replicate 624 0#33)), List.replicate 624 0#33,
    ⟨⟨filled_wf _, fun _ => filled_populated _⟩, ⟨rfl, (nomatch ·)⟩,
      ⟨(nomatch ·), (nomatch ·), (nomatch ·), by decide, fun _ => (nomatch ·)⟩⟩,
    rfl, rfl, rfl, rfl, List.length_replicate, fun c hc => by rw [List.eq_of_mem_replicate hc]; decide, rfl⟩

end Sys2Proof.Tests
end

section
/-! SUPPORT. What the STATUS register, the status port and the controller's conditions are, in terms of the stored bits
(10_state.md R27, R29), and the state after reset (R30). -/

namespace Sys2Proof.Machine

/-! ## The fields of STATUS (10_state.md R27) -/

/-- The field SEEDED. -/
theorem State.status_getLsbD_zero (s : State) : s.status.getLsbD 0 = s.seeded := by
  simp only [State.status, BitVec.getLsbD_append]
  simp [bit]

/-- The field FAULT. -/
theorem State.status_getLsbD_one (s : State) : s.status.getLsbD 1 = s.fault := by
  simp only [State.status, BitVec.getLsbD_append]
  simp [bit]

/-- The field FAULT_CODE: the two bits above FAULT and SEEDED. -/
@[simp] theorem State.status_extractLsb'_faultCode (s : State) : s.status.extractLsb' 2 2 = s.faultCode :=
  BitVec.extractLsb'_append_eq_left

@[simp] theorem State.outputs_status (s : State) (rst : Bool) (idle : Word) : (s.outputs rst idle).status = s.status :=
  rfl

/-- STATUS reads 0 exactly when its three fields do. -/
theorem State.status_eq_zero_iff (s : State) :
    s.status = 0b0000#4 ↔ s.seeded = false ∧ s.fault = false ∧ s.faultCode = Config.codeNone := by
  constructor
  · intro h
    refine ⟨?_, ?_, ?_⟩
    · rw [← s.status_getLsbD_zero, h]; rfl
    · rw [← s.status_getLsbD_one, h]; rfl
    · rw [← s.status_extractLsb'_faultCode, h]; rfl
  · rintro ⟨hseeded, hfault, hcode⟩
    rw [State.status, hseeded, hfault, hcode]; rfl

/-! ## The condition after reset (10_state.md R29) -/

theorem State.condition_eq_unseeded_iff (s : State) : s.condition = .unseeded ↔ s.fault = false ∧ s.seeded = false := by
  unfold State.condition
  cases s.fault with
  | true => simp
  | false =>
    cases s.seeded with
    | false => simp
    | true => by_cases hcursor : s.cursor = Config.exhausted <;> simp [hcursor]

end Sys2Proof.Machine
end

section
/-! PROOFS. The statements of 10_state.md about the reset state and STATUS. -/

open Sys2Proof Sys2Proof.Machine

/-- Settles O11: the array lists no entry, the stored bits are 0, and STATUS and the condition follow from the bits
(10_state.md R27, R29, R30). -/
theorem resetStateIsTheSpecs : Obligations.ResetStateIsTheSpecs := by
  have hstatus : State.reset.status = 0b0000#4 :=
    (State.status_eq_zero_iff _).mpr ⟨State.reset_seeded, State.reset_fault, State.reset_faultCode⟩
  have hcondition : State.reset.condition = .unseeded :=
    (State.condition_eq_unseeded_iff _).mpr ⟨State.reset_fault, State.reset_seeded⟩
  exact ⟨Memory.read_nil, rfl, State.reset_seeded, State.reset_fault, State.reset_faultCode, hstatus, State.reset_rsp,
    hcondition⟩

/-- Settles O14: STATUS is read field by field, and the port drives STATUS whatever the level of `rst`
(10_state.md R27, 30_encoding.md R71). -/
theorem statusShowsTheBits : Obligations.StatusShowsTheBits := fun s rst idle =>
  ⟨s.status_getLsbD_zero, s.status_getLsbD_one, s.status_extractLsb'_faultCode, s.outputs_status rst idle⟩

end

section
/-! SUPPORT. The decoder's two rows, and the opcode bit as a bit of the word, under the mask and of a zero-extended
operand (30_encoding.md R62, R64). -/

namespace Sys2Proof

theorem decode_of_opBit_false {cmd : CmdWord} (h : opBit cmd = false) : decode cmd = .next := by
  simp [decode, h]

theorem decode_of_opBit_true {cmd : CmdWord} (h : opBit cmd = true) : decode cmd = .seed (operandField cmd) := by
  simp [decode, h]

/-- The mask `0x1_0000_0000` keeps the opcode bit and nothing else (30_encoding.md R64). -/
theorem and_seedOpcode (cmd : CmdWord) : cmd &&& seedOpcode = if opBit cmd then seedOpcode else 0#33 :=
  BitVec.and_twoPow cmd 32

theorem operandField_eq_setWidth (cmd : CmdWord) : operandField cmd = cmd.setWidth 32 :=
  (BitVec.setWidth_eq_extractLsb' (by decide)).symm

/-- A word of 32 operand bits alone has the opcode bit clear. -/
@[simp] theorem opBit_setWidth_word (operand : Word) : opBit (operand.setWidth 33) = false := by
  simp [opBit]

end Sys2Proof
end

section
/-! PROOFS. The statements of 30_encoding.md about the opcode map. -/

open Sys2Proof

/-- Settles O2: the opcode bit is what the mask leaves, and it selects the decoder's row (30_encoding.md R64). -/
theorem opcodeMapIsTotal : Obligations.OpcodeMapIsTotal := by
  intro cmd
  have hmask := and_seedOpcode cmd
  cases hop : opBit cmd with
  | false =>
    rw [hop] at hmask
    exact .inl ⟨hmask, decode_of_opBit_false hop⟩
  | true =>
    rw [hop] at hmask
    have hdecode := decode_of_opBit_true hop
    rw [operandField_eq_setWidth] at hdecode
    exact .inr ⟨hmask, hdecode⟩

/-- Settles O3: whatever its operand bits, a word with the opcode bit clear is in the decoder's NEXT row
(30_encoding.md R65). -/
theorem nextSpellingsAreOneCommand : Obligations.NextSpellingsAreOneCommand :=
  ⟨fun operand => decode_of_opBit_false (opBit_setWidth_word operand), rfl⟩

end

section
/-! SUPPORT. The words of the seeding recurrence and what a SEED leaves at each index of the array (40_seed.md R81, R82),
and when the controller is in NEEDS_TWIST (10_state.md R29). -/

namespace Sys2Proof.Machine

/-! ## The seeded array -/

/-- The word of the seeding recurrence at index `i`, without an array: `value` at 0, then each word from the one before
(40_seed.md R81). `seedWords_read` ties it to the array a SEED leaves. -/
def seedWord (value : Word) : Nat → Word
  | 0 => value
  | i + 1 => seedNext (i + 1) (seedWord value i)

@[simp] theorem seedWord_zero (v : Word) : seedWord v 0 = v := rfl

theorem seedWord_succ (v : Word) (i : Nat) : seedWord v (i + 1) = seedNext (i + 1) (seedWord v i) := rfl

/-- The FSM's register `prev` holds the word last written (40_seed.md R82). -/
theorem seedPass_prev (v : Word) (k : Nat) (m : Memory) : (seedPass v k m).2 = seedWord v k := by
  induction k with
  | zero => rfl
  | succ k ih => rw [seedPass_succ, seedWord_succ, ih]

/-- One more write of the seeding pass writes the recurrence's word. -/
theorem seedPass_words_succ (v : Word) (k : Nat) (m : Memory) :
    (seedPass v (k + 1) m).1 = (seedPass v k m).1.write (indexOf (k + 1)) (seedWord v (k + 1)) := by
  rw [seedPass_succ, seedPass_prev, seedWord_succ]

/-- Every index the pass has reached holds its word, whatever the array held before: no later write is to an earlier
index. -/
theorem seedPass_read (v : Word) (m : Memory) {k i : Nat} (hi : i ≤ k) (hk : k < 624) :
    (seedPass v k m).1.read (indexOf i) = some (seedWord v i) := by
  induction k with
  | zero =>
    obtain rfl : i = 0 := Nat.le_zero.mp hi
    exact Memory.read_write_same m _ v
  | succ k ih =>
    rw [seedPass_words_succ]
    rcases Nat.le_succ_iff.mp hi with hlt | rfl
    · have hne : indexOf i ≠ indexOf (k + 1) := fun h => by
        have := (indexOf_inj (by omega) hk).mp h
        omega
      rw [Memory.read_write_other _ _ hne]
      exact ih hlt (by omega)
    · exact Memory.read_write_same _ _ _

/-- A SEED leaves the recurrence's word at every index. -/
theorem seedWords_read (v : Word) (m : Memory) {i : Nat} (hi : i < 624) :
    (seedWords v m).read (indexOf i) = some (seedWord v i) := by
  rw [seedWords_eq]
  exact seedPass_read v m (Nat.le_of_lt_succ hi) (by decide)

/-- A SEED populates the array (10_state.md R21). -/
theorem seedWords_populated (v : Word) (m : Memory) : (seedWords v m).populated := fun i => by
  rw [← indexOf_self i, seedWords_read v m i.isLt]
  rfl

/-! ## The condition after a SEED -/

theorem State.condition_eq_needsTwist_iff (s : State) :
    s.condition = .needsTwist ↔ s.fault = false ∧ s.seeded = true ∧ s.cursor = Config.exhausted := by
  unfold State.condition
  cases s.fault with
  | true => simp
  | false =>
    cases s.seeded with
    | false => simp
    | true => by_cases hcursor : s.cursor = Config.exhausted <;> simp [hcursor]

/-- "SEED enters NEEDS_TWIST" from every condition but HALTED (40_seed.md R83). -/
theorem State.seedWith_condition {s : State} (h : s.fault = false) (v : Word) :
    (s.seedWith v).condition = .needsTwist :=
  (State.condition_eq_needsTwist_iff _).mpr ⟨h, s.seedWith_seeded v, s.seedWith_cursor v⟩

/-- A SEED presented while `cmd_ready = 1` completes (40_seed.md R80). -/
theorem exec_seed_of_ready {s : State} (h : s.cmdReady = true) (v : Word) : exec (.seed v) s = .next (s.seedWith v) := by
  rw [exec_seed, execSeed_of_ready h]

end Sys2Proof.Machine
end

section
/-! PROOFS. The statements of 40_seed.md about one accepted SEED. -/

open Sys2Proof Sys2Proof.Machine

/-- Settles O15: the array holds the recurrence's word at every index, and two neighbouring words of the recurrence
stand in the relation R81 writes out. -/
theorem seedFillsTheArrayByTheRecurrence : Obligations.SeedFillsTheArrayByTheRecurrence := by
  intro s value hready
  refine ⟨s.seedWith value, exec_seed_of_ready hready value, seedWords_read value s.words (by decide), ?_⟩
  intro i hpos hle
  obtain ⟨j, rfl⟩ := Nat.exists_eq_add_of_le' hpos
  have hprev : (seedWords value s.words).read (indexOf j) = some (seedWord value j) :=
    seedWords_read value s.words (by omega)
  have hword : (seedWords value s.words).read (indexOf (j + 1)) = some (seedNext (j + 1) (seedWord value j)) :=
    seedWords_read value s.words (by omega)
  exact ⟨seedWord value j, hprev, hword⟩

/-- Settles O16: `seedWith` states the whole effect field by field; an accepting block has neither a fault nor a
waiting response, so NEEDS_TWIST is entered and the channel stays empty (40_seed.md R83). -/
theorem seedCompletesInNeedsTwist : Obligations.SeedCompletesInNeedsTwist := by
  intro s value hready
  obtain ⟨hfault, hrsp⟩ := State.cmdReady_iff s |>.mp hready
  exact ⟨s.seedWith value, exec_seed_of_ready hready value, s.seedWith_words value,
    seedWords_populated value s.words, congrArg Fin.val (s.seedWith_cursor value), s.seedWith_seeded value,
    State.seedWith_condition hfault value, s.seedWith_fault value, s.seedWith_faultCode value,
    s.seedWith_rsp value, (s.seedWith_rsp value).trans hrsp, s.seedWith_edges value, s.seedWith_responses value⟩

end

section
/-! SUPPORT. What one twist step and the ascending pass leave at each index of the array, as functions of what the array
held (41_twist.md R91, R92), and the parity bit of the combined word (R93). -/

namespace Sys2Proof.Machine

/-! ## The datapath -/

/-- "y is odd" is bit 0 of the second operand: the lower mask keeps it, the upper mask drops bit 0 of the first
(41_twist.md R91). -/
theorem combine_getLsbD_zero (a b : Word) : (combine a b).getLsbD 0 = b.getLsbD 0 := by
  simp [combine, upperMask, lowerMask]

/-- The step's word is the old/new table's `mix` (41_twist.md R91, R93). -/
theorem mix_eq_tableMix (a b c : Word) : mix a b c = tableMix a b c := by
  rw [mix, magicIfOdd, combine_getLsbD_zero]
  rfl

/-- A twist step whose three operands hold words completes: it writes their `mix` at its own index. -/
theorem twistStep_of_reads {i : Nat} {m : Memory} {a b c : Word} (ha : m.read (indexOf i) = some a)
    (hb : m.read (indexOf ((i + 1) % 624)) = some b) (hc : m.read (indexOf ((i + 397) % 624)) = some c) :
    twistStep i m = some (m.write (indexOf i) (mix a b c)) :=
  twistStep_eq_some.mpr ⟨a, b, c, ha, hb, hc, rfl⟩

/-! ## Arrays as functions of the index -/

/-- The array holds the word `w i` at every index `i`. -/
def Memory.Holds (m : Memory) (w : Nat → Word) : Prop := ∀ i, i < 624 → m.read (indexOf i) = some (w i)

theorem Memory.Holds.write {m : Memory} {w : Nat → Word} (h : m.Holds w) {k : Nat} (hk : k < 624) (v : Word) :
    (m.write (indexOf k) v).Holds (Function.update w k v) := by
  intro i hi
  by_cases hik : i = k
  · rw [hik, Function.update_self, Memory.read_write_same]
  · have hne : indexOf i ≠ indexOf k := mt (indexOf_inj hi hk).mp hik
    rw [Function.update_of_ne hik, Memory.read_write_other _ _ hne, h i hi]

/-- The word that step `k` computes from an array that holds `w` (41_twist.md R91). -/
def stepWord (w : Nat → Word) (k : Nat) : Word := mix (w k) (w ((k + 1) % 624)) (w ((k + 397) % 624))

theorem twistStep_of_holds {m : Memory} {w : Nat → Word} (h : m.Holds w) {k : Nat} (hk : k < 624) :
    twistStep k m = some (m.write (indexOf k) (stepWord w k)) :=
  twistStep_of_reads (h k hk) (h _ (Nat.mod_lt _ (by decide))) (h _ (Nat.mod_lt _ (by decide)))

/-! ## The pass -/

/-- The words after the first `k` steps of the pass, from the words `old` before it (41_twist.md R92).
`twistPass_of_holds` ties them to the array. -/
def passWords (old : Nat → Word) : Nat → Nat → Word
  | 0 => old
  | k + 1 => Function.update (passWords old k) k (stepWord (passWords old k) k)

theorem passWords_succ (old : Nat → Word) (k : Nat) :
    passWords old (k + 1) = Function.update (passWords old k) k (stepWord (passWords old k) k) := rfl

/-- On a fully populated array the pass completes, and the array holds the words of the pass. -/
theorem twistPass_of_holds {m : Memory} {old : Nat → Word} (h : m.Holds old) {k : Nat} (hk : k ≤ 624) :
    ∃ n, twistPass k m = some n ∧ n.Holds (passWords old k) := by
  induction k with
  | zero => exact ⟨m, rfl, h⟩
  | succ k ih =>
    obtain ⟨l, hl, hheld⟩ := ih (Nat.le_of_succ_le hk)
    exact ⟨_, twistPass_succ_eq_some.mpr ⟨l, hl, twistStep_of_holds hheld hk⟩, hheld.write hk _⟩

/-- On a fully populated array the twist completes, and the array holds the words of the whole pass. -/
theorem twistWords_of_holds {m : Memory} {old : Nat → Word} (h : m.Holds old) :
    ∃ n, twistWords m = some n ∧ n.Holds (passWords old 624) := by
  rw [twistWords_eq]
  exact twistPass_of_holds h le_rfl

/-- An index the pass has not reached still holds its old word. -/
theorem passWords_of_le (old : Nat → Word) {k i : Nat} (h : k ≤ i) : passWords old k i = old i := by
  induction k with
  | zero => rfl
  | succ k ih => rw [passWords_succ, Function.update_of_ne (by omega), ih (Nat.le_of_succ_le h)]

/-- An index the pass has passed holds the word its own step wrote: no later step writes it. -/
theorem passWords_of_lt (old : Nat → Word) {k i : Nat} (h : i < k) :
    passWords old k i = stepWord (passWords old i) i := by
  induction k with
  | zero => omega
  | succ k ih =>
    rw [passWords_succ]
    rcases Nat.lt_succ_iff_lt_or_eq.mp h with hlt | rfl
    · rw [Function.update_of_ne hlt.ne, ih hlt]
    · rw [Function.update_self]

/-- An operand that step `k` finds rewritten is already what the end of the pass leaves at its index. -/
theorem passWords_eq_final (old : Nat → Word) {k i : Nat} (h : i < k) (hk : k ≤ 624) :
    passWords old k i = passWords old 624 i := by
  rw [passWords_of_lt old h, passWords_of_lt old (h.trans_le hk)]

/-- What the whole pass leaves at an index, as the table's `mix`: "The first operand is always old" (41_twist.md R93),
the other two are as the steps before have left them. -/
theorem passWords_final (old : Nat → Word) {i : Nat} (h : i < 624) :
    passWords old 624 i =
      tableMix (old i) (passWords old i ((i + 1) % 624)) (passWords old i ((i + 397) % 624)) := by
  rw [passWords_of_lt old h, stepWord, mix_eq_tableMix, passWords_of_le old le_rfl]

/-! ## The three ranges of the table (41_twist.md R93) -/

/-- In the first range no operand is rewritten. -/
theorem passWords_final_of_le_226 (old : Nat → Word) {i : Nat} (h : i ≤ 226) :
    passWords old 624 i = tableMix (old i) (old (i + 1)) (old (i + 397)) := by
  have hnext : (i + 1) % 624 = i + 1 := Nat.mod_eq_of_lt (by omega)
  have hoffset : (i + 397) % 624 = i + 397 := Nat.mod_eq_of_lt (by omega)
  rw [passWords_final old (by omega), hnext, hoffset, passWords_of_le old (Nat.le_add_right i 1),
    passWords_of_le old (Nat.le_add_right i 397)]

/-- In the second range the third operand is rewritten. -/
theorem passWords_final_of_le_622 (old : Nat → Word) {i : Nat} (h : 227 ≤ i) (h' : i ≤ 622) :
    passWords old 624 i = tableMix (old i) (old (i + 1)) (passWords old 624 (i - 227)) := by
  have hnext : (i + 1) % 624 = i + 1 := Nat.mod_eq_of_lt (by omega)
  have hoffset : (i + 397) % 624 = i - 227 := by omega
  rw [passWords_final old (by omega), hnext, hoffset, passWords_of_le old (Nat.le_add_right i 1),
    passWords_eq_final old (by omega : i - 227 < i) (by omega)]

/-- At the last step the second and the third operand are rewritten. -/
theorem passWords_final_623 (old : Nat → Word) :
    passWords old 624 623 = tableMix (old 623) (passWords old 624 0) (passWords old 624 396) := by
  have hnext : (623 + 1) % 624 = 0 := by decide
  have hoffset : (623 + 397) % 624 = 396 := by decide
  rw [passWords_final old (by decide), hnext, hoffset, passWords_eq_final old (by decide : 0 < 623) (by decide),
    passWords_eq_final old (by decide : 396 < 623) (by decide)]

end Sys2Proof.Machine
end

section
/-! PROOFS. The statements of 41_twist.md about one twist step and the whole pass. -/

open Sys2Proof Sys2Proof.Machine

/-- Settles O20: the step writes the `mix` of its three operands at its own index, and a write changes no other entry
(41_twist.md R91). -/
theorem twistStepIsThePerIndexTransition : Obligations.TwistStepIsThePerIndexTransition := by
  intro i m a b c y _ ha hb hc hy
  have hmix : mix a b c = c ^^^ (y >>> 1) ^^^ (if y.getLsbD 0 then 0x9908B0DF#32 else 0#32) := by rw [hy]; rfl
  refine ⟨m.write (indexOf i) (mix a b c), twistStep_of_reads ha hb hc, ?_, ?_⟩
  · rw [Memory.read_write_same, hmix]
  · exact fun j hj => Memory.read_write_other _ _ hj

/-- Settles O21: `new` is what the whole pass leaves; in each range of the table the step's position says which operands
the pass has already rewritten (41_twist.md R93). -/
theorem twistIsTheOldNewTable : Obligations.TwistIsTheOldNewTable := by
  intro m old hold
  obtain ⟨n, htwist, hnew⟩ := twistWords_of_holds (show m.Holds old from hold)
  exact ⟨n, passWords old 624, htwist, hnew, fun _ => passWords_final_of_le_226 old,
    fun _ => passWords_final_of_le_622 old, passWords_final_623 old⟩

end

section
/-! SUPPORT. The two shapes of TEMPER's steps, an XOR with a right shift and an XOR with a masked left shift, bit by bit
and as linear functions, and the set bits of the two masks (42_draw_tempering.md R103, R104). -/

namespace Sys2Proof.Machine

/-! ## The steps bit by bit -/

/-- A right-shift step XORs in the bit `k` places above, as far as there is one. -/
theorem xor_ushiftRight_getLsbD (y : Word) {k n : Nat} (h : n + k = 31) (j : Nat) :
    (y ^^^ (y >>> k)).getLsbD j = if j ≤ n then y.getLsbD j ^^ y.getLsbD (j + k) else y.getLsbD j := by
  rw [BitVec.getLsbD_xor, BitVec.getLsbD_ushiftRight, Nat.add_comm k j]
  split
  · rfl
  · have habove : y.getLsbD (j + k) = false := BitVec.getLsbD_of_ge y _ (by omega)
    rw [habove, Bool.xor_false]

/-- A masked left-shift step XORs in the bit `k` places below, as far as there is one, where the mask lets it pass. -/
theorem xor_shiftLeft_and_getLsbD (y mask : Word) (k : Nat) {j : Nat} (hj : j ≤ 31) :
    (y ^^^ ((y <<< k) &&& mask)).getLsbD j =
      if j ≥ k then y.getLsbD j ^^ (y.getLsbD (j - k) && mask.getLsbD j) else y.getLsbD j := by
  have hwidth : j < 32 := by omega
  rw [BitVec.getLsbD_xor, BitVec.getLsbD_and, BitVec.getLsbD_shiftLeft]
  split
  · next hge => simp [hwidth, Nat.not_lt.mpr hge]
  · next hlt => simp [Nat.not_le.mp hlt]

/-- The set bits of `TEMPER_B` (42_draw_tempering.md R104). -/
theorem temperB_getLsbD : ∀ j ≤ 31,
    temperB.getLsbD j = decide (j ∈ [31, 28, 27, 26, 24, 21, 19, 18, 14, 12, 10, 9, 7]) := by decide

/-- The set bits of `TEMPER_C` (42_draw_tempering.md R104). -/
theorem temperC_getLsbD : ∀ j ≤ 31,
    temperC.getLsbD j = decide (j ∈ [31, 30, 29, 27, 26, 25, 24, 23, 22, 18, 17]) := by decide

theorem temper1_getLsbD (y : Word) (j : Nat) :
    (temper1 y).getLsbD j = if j ≤ 20 then y.getLsbD j ^^ y.getLsbD (j + 11) else y.getLsbD j :=
  xor_ushiftRight_getLsbD y rfl j

theorem temper2_getLsbD (y : Word) {j : Nat} (hj : j ≤ 31) :
    (temper2 y).getLsbD j =
      if j ≥ 7 then
        y.getLsbD j ^^ (y.getLsbD (j - 7) && decide (j ∈ [31, 28, 27, 26, 24, 21, 19, 18, 14, 12, 10, 9, 7]))
      else y.getLsbD j := by
  rw [← temperB_getLsbD j hj]
  exact xor_shiftLeft_and_getLsbD y temperB temperS hj

theorem temper3_getLsbD (y : Word) {j : Nat} (hj : j ≤ 31) :
    (temper3 y).getLsbD j =
      if j ≥ 15 then y.getLsbD j ^^ (y.getLsbD (j - 15) && decide (j ∈ [31, 30, 29, 27, 26, 25, 24, 23, 22, 18, 17]))
      else y.getLsbD j := by
  rw [← temperC_getLsbD j hj]
  exact xor_shiftLeft_and_getLsbD y temperC temperT hj

theorem temper4_getLsbD (y : Word) (j : Nat) :
    (temper4 y).getLsbD j = if j ≤ 13 then y.getLsbD j ^^ y.getLsbD (j + 18) else y.getLsbD j :=
  xor_ushiftRight_getLsbD y rfl j

/-! ## Linearity -/

/-- A right-shift step is linear, as the shift distributes over XOR. -/
theorem xor_ushiftRight_xor (a b : Word) (k : Nat) :
    (a ^^^ b) ^^^ ((a ^^^ b) >>> k) = (a ^^^ (a >>> k)) ^^^ (b ^^^ (b >>> k)) := by
  rw [BitVec.ushiftRight_xor_distrib]
  ac_rfl

theorem xor_and_distrib_mask (a b mask : Word) : (a ^^^ b) &&& mask = (a &&& mask) ^^^ (b &&& mask) := by
  ext j
  simp only [BitVec.getElem_and, BitVec.getElem_xor, Bool.and_xor_distrib_right]

/-- A masked left-shift step is linear, as both the shift and the mask distribute over XOR. -/
theorem xor_shiftLeft_and_xor (a b mask : Word) (k : Nat) :
    (a ^^^ b) ^^^ (((a ^^^ b) <<< k) &&& mask) = (a ^^^ ((a <<< k) &&& mask)) ^^^ (b ^^^ ((b <<< k) &&& mask)) := by
  rw [BitVec.shiftLeft_xor_distrib, xor_and_distrib_mask]
  ac_rfl

theorem temper1_xor (a b : Word) : temper1 (a ^^^ b) = temper1 a ^^^ temper1 b := xor_ushiftRight_xor a b temperU

theorem temper2_xor (a b : Word) : temper2 (a ^^^ b) = temper2 a ^^^ temper2 b :=
  xor_shiftLeft_and_xor a b temperB temperS

theorem temper3_xor (a b : Word) : temper3 (a ^^^ b) = temper3 a ^^^ temper3 b :=
  xor_shiftLeft_and_xor a b temperC temperT

theorem temper4_xor (a b : Word) : temper4 (a ^^^ b) = temper4 a ^^^ temper4 b := xor_ushiftRight_xor a b temperL

/-- TEMPER is linear over XOR, as its four steps are (42_draw_tempering.md R104). -/
theorem temper_xor (a b : Word) : temper (a ^^^ b) = temper a ^^^ temper b := by
  simp only [temper, temper1_xor, temper2_xor, temper3_xor, temper4_xor]

/-- A linear function answers 0 at 0. -/
@[simp] theorem temper_zero : temper 0#32 = 0#32 := by
  have hzero := temper_xor 0#32 0#32
  rwa [BitVec.xor_self, BitVec.xor_self] at hzero

end Sys2Proof.Machine
end

section
/-! SUPPORT. An accepted NEXT before any SEED (42_draw_tempering.md R110). -/

namespace Sys2Proof.Machine

/-- The `seeded` test of an accepted NEXT comes before the twist and the draw (60_exceptions.md R125). -/
theorem exec_next_of_unseeded {s : State} (hready : s.cmdReady = true) (hseeded : s.seeded = false) :
    exec .next s = .next s.raiseDrawBeforeSeed := by
  rw [exec_next, execNext, ifAccepted_of_ready hready, hseeded]
  rfl

end Sys2Proof.Machine
end

section
/-! PROOFS. The statements of 42_draw_tempering.md about TEMPER and about a NEXT before any SEED. -/

open Sys2Proof Sys2Proof.Machine

/-- Settles O25: the intermediate words are those of TEMPER's own steps; bit by bit each step is its shape's clause at
its shift and mask (42_draw_tempering.md R104). -/
theorem temperBitByBitAndLinear : Obligations.TemperBitByBitAndLinear := by
  refine ⟨fun y0 => ?_, temper_xor, temper_zero⟩
  exact ⟨temper1 y0, temper2 (temper1 y0), temper3 (temper2 (temper1 y0)), fun j hj =>
    ⟨temper1_getLsbD y0 j, temper2_getLsbD _ hj, temper3_getLsbD _ hj, temper4_getLsbD _ j⟩⟩

/-- Settles O24: each equation names the result of one step, and TEMPER is the steps in this order
(42_draw_tempering.md R103). -/
theorem temperIsTheFourSteps : Obligations.TemperIsTheFourSteps := by
  rintro y0 _ _ _ _ rfl rfl rfl rfl
  rfl

/-- Settles O29: the NEXT raises DrawBeforeSeed, which changes the two fault fields alone; no response waits in a block
that accepts (42_draw_tempering.md R110, 60_exceptions.md R125). -/
theorem nextBeforeSeedTakesTheFault : Obligations.NextBeforeSeedTakesTheFault := by
  intro s hready hseeded
  obtain ⟨-, hrsp⟩ := State.cmdReady_iff s |>.mp hready
  exact ⟨exec_next_of_unseeded hready hseeded, hrsp⟩

end

section
/-! SUPPORT. The handshake ports under reset and out of it, and what a reset edge and the reset event leave
(30_encoding.md R72, 70_reset_and_hazards.md R140). -/

namespace Sys2Proof.Machine

/-- `cmd_ready` is 0 while `rst` is asserted. -/
@[simp] theorem State.outputs_reset_cmdReady (s : State) (idle : Word) : (s.outputs true idle).cmdReady = false := rfl

/-- `rsp_valid` is 0 while `rst` is asserted. -/
@[simp] theorem State.outputs_reset_rspValid (s : State) (idle : Word) : (s.outputs true idle).rspValid = false := rfl

/-- Out of reset the port drives the block's own `cmd_ready`. -/
@[simp] theorem State.outputs_running_cmdReady (s : State) (idle : Word) :
    (s.outputs false idle).cmdReady = s.cmdReady := rfl

/-- An edge with `rst` asserted does the reset event, whatever else the host drives. -/
theorem edgeStep_of_rst {e : Edge} (h : e.rst = true) (s : State) : edgeStep e s = .next s.resetBlock := by
  simp [edgeStep, h]

/-- The reset event leaves the block ready for a command. -/
@[simp] theorem State.resetBlock_cmdReady (s : State) : s.resetBlock.cmdReady = true :=
  (State.cmdReady_iff _).mpr ⟨s.resetBlock_fault, s.resetBlock_rsp⟩

/-- The reset event leaves the controller in UNSEEDED. -/
@[simp] theorem State.resetBlock_condition (s : State) : s.resetBlock.condition = .unseeded :=
  (State.condition_eq_unseeded_iff _).mpr ⟨s.resetBlock_fault, s.resetBlock_seeded⟩

end Sys2Proof.Machine
end

section
/-! PROOFS. The statement of 70_reset_and_hazards.md about the reset event. -/

open Sys2Proof Sys2Proof.Machine

/-- Settles O12: a reset edge does the reset event on the state with that edge consumed, and what the event leaves does
not depend on that state (70_reset_and_hazards.md R140). -/
theorem resetEdgeGivesTheResetState : Obligations.ResetEdgeGivesTheResetState := by
  intro s e rest hedges hrst
  have hstep : step s = .next (s.withEdges rest).resetBlock := by
    rw [step_edge hedges, edgeStep_of_rst hrst]
  have hready (idle : Word) : ((s.withEdges rest).resetBlock.outputs false idle).cmdReady = true := by
    rw [State.outputs_running_cmdReady, State.resetBlock_cmdReady]
  exact ⟨fun idle => ⟨s.outputs_reset_cmdReady idle, s.outputs_reset_rspValid idle⟩, _, hstep, Memory.read_nil, rfl,
    State.resetBlock_seeded _, State.resetBlock_fault _, State.resetBlock_faultCode _, State.resetBlock_rsp _,
    State.resetBlock_condition _, fun idle => ⟨State.outputs_reset_cmdReady _ idle, hready idle⟩⟩

end

section
/-! SUPPORT. The round trip between commands and command words, and the words that the opcode table's numbering gives
(30_encoding.md R62 to R65, R74). -/

namespace Sys2Proof

/-- The opcode bit lies above the operand, so a SEED word's operand field is its operand (30_encoding.md R62). -/
@[simp] theorem operandField_encode_seed (v : Word) : operandField (encode (.seed v)) = v := by
  have hopcode : seedOpcode.setWidth 32 = 0#32 := by decide
  rw [operandField_eq_setWidth, encode, BitVec.setWidth_or, hopcode, BitVec.zero_or,
    BitVec.setWidth_setWidth_of_le v (by decide), BitVec.setWidth_eq]

/-- Decoding undoes encoding. -/
@[simp] theorem decode_encode (i : Instr) : decode (encode i) = i := by
  cases i with
  | next => exact decode_of_opBit_false Laws.OpcodeBit.next
  | seed v => rw [decode_of_opBit_true (Laws.OpcodeBit.seed v), operandField_encode_seed]

/-- A word with the opcode bit set is that bit and its operand field (30_encoding.md R62). -/
theorem seedOpcode_or_operandField {cmd : CmdWord} (h : opBit cmd = true) :
    seedOpcode ||| (operandField cmd).setWidth 33 = cmd := by
  have hbit (j : Nat) : seedOpcode.getLsbD j = decide (j = 32) := by
    rw [show seedOpcode = BitVec.twoPow 33 32 from rfl, BitVec.getLsbD_twoPow]
    simp [eq_comm]
  refine BitVec.eq_of_getLsbD_eq fun j hj => ?_
  rw [BitVec.getLsbD_or, hbit, operandField_eq_setWidth, BitVec.getLsbD_setWidth, BitVec.getLsbD_setWidth]
  by_cases hj32 : j = 32
  · subst hj32
    simpa [opBit] using h.symm
  · have : j < 32 := by omega
    simp [hj32, hj, this]

/-- A number of at most `nbits` bits and at most 33 is taken whole. -/
theorem tableCmd_of_lt {nbits w : Nat} (h : w < 2 ^ nbits) : Machine.tableCmd nbits w = BitVec.ofNat 33 w := by
  rw [Machine.tableCmd, Nat.mod_eq_of_lt h]

/-- The opcode table's numbering decodes as the word it numbers. -/
theorem decodeTableWord_of_lt {nbits w : Nat} (h : w < 2 ^ nbits) (hfits : w < 2 ^ 33) :
    decodeTableWord nbits w = some (decode (BitVec.ofNat 33 w)) := by
  have hnumber : decodeNumber w = .ok (decode (BitVec.ofNat 33 w)) := if_pos (decide_eq_true hfits)
  rw [decodeTableWord, Nat.mod_eq_of_lt h, hnumber]

end Sys2Proof
end

section
/-! PROOFS. The statements of 30_encoding.md about the round trip, and the fixed words of its vectors and listings. -/

open Sys2Proof Sys2Proof.Machine

/-- Settles O1: each command's own opcode bit selects its row of the decoder, and the operand field of a SEED word is
its operand. -/
theorem decodeOfEncodeIsTheCommand : Obligations.DecodeOfEncodeIsTheCommand := decode_encode

/-- Settles O4: a SEED word is nothing but the opcode bit and the operand the decoder reads from it. -/
theorem encodeOfDecodedSeedWordIsTheWord : Obligations.EncodeOfDecodedSeedWordIsTheWord := by
  intro cmd hop
  rw [decode_of_opBit_true hop, encode, seedOpcode_or_operandField hop]

/-- Settles O5, by evaluation of the decoder on the eight fixed words. -/
theorem decodeVectorsOfTheSpec : Obligations.DecodeVectorsOfTheSpec := by
  unfold Obligations.DecodeVectorsOfTheSpec
  decide

/-- Settles O6, by evaluation of the line reader on the four fixed lines. -/
theorem listingLinesAssemble : Obligations.ListingLinesAssemble := by
  unfold Obligations.ListingLinesAssemble
  decide

end

section
/-! SUPPORT. What an accepted command can do, as one relation with a case for each: SEED, the fault, and a draw. The
draw of an exhausted block and the draw from the current generation are one case, over the array and the cursor the draw
reads (42_draw_tempering.md R101, R102). -/

namespace Sys2Proof.Machine

/-! ## The array and the cursor of a draw -/

/-- The array and the cursor with which an accepted NEXT of a seeded block draws: the block's own, or, when the cursor
says that the generation is exhausted, the twisted array and 0 (42_draw_tempering.md R102). -/
inductive State.DrawsFrom (s : State) : Memory → Cursor → Prop where
  | buffered (hcursor : s.cursor ≠ Config.exhausted) : s.DrawsFrom s.words s.cursor
  | twisted {m : Memory} (hcursor : s.cursor = Config.exhausted) (htwist : twistWords s.words = some m) :
      s.DrawsFrom m 0

/-- The state a draw leaves: the array, the cursor one on, and the tempered word as response (42_draw_tempering.md
R101, R106). -/
def State.drawn (s : State) (m : Memory) (c : Cursor) (y : Word) : State :=
  ((s.withWords m).withCursor (c + 1)).respond (temper y)

section
variable (s : State) (m : Memory) (c : Cursor) (y : Word)

@[simp] theorem State.drawn_words : (s.drawn m c y).words = m := rfl
@[simp] theorem State.drawn_cursor : (s.drawn m c y).cursor = c + 1 := rfl
@[simp] theorem State.drawn_seeded : (s.drawn m c y).seeded = s.seeded := rfl
@[simp] theorem State.drawn_fault : (s.drawn m c y).fault = s.fault := rfl
@[simp] theorem State.drawn_faultCode : (s.drawn m c y).faultCode = s.faultCode := rfl
@[simp] theorem State.drawn_rsp : (s.drawn m c y).rsp = some (temper y) := rfl
@[simp] theorem State.drawn_edges : (s.drawn m c y).edges = s.edges := rfl
@[simp] theorem State.drawn_responses : (s.drawn m c y).responses = s.responses := rfl

end

/-- The twist of a populated array completes. -/
theorem exists_twistWords {m : Memory} (h : m.populated) : ∃ n, twistWords m = some n := by
  obtain ⟨n, hn, -⟩ := twistPass_of_populated h 624
  exact ⟨n, (twistWords_eq m).trans hn⟩

/-- A twist keeps the array fully populated. -/
theorem twistWords_populated {m n : Memory} (h : m.populated) (hn : twistWords m = some n) : n.populated := by
  obtain ⟨n', hn', hpop⟩ := twistPass_of_populated h 624
  rw [← twistWords_eq, hn, Option.some.injEq] at hn'
  exact hn' ▸ hpop

namespace State.DrawsFrom
variable {s : State} {m : Memory} {c : Cursor}

/-- A draw never reads past the array (20_memory.md R43). -/
theorem cursor_ne (h : s.DrawsFrom m c) : c ≠ Config.exhausted := by
  cases h with
  | buffered hcursor => exact hcursor
  | twisted => decide

theorem cursor_succ_val (h : s.DrawsFrom m c) : (c + 1).val = c.val + 1 := Machine.cursor_succ_val h.cursor_ne

theorem wf (h : s.DrawsFrom m c) (hwf : s.words.wf) : m.wf := by
  cases h with
  | buffered => exact hwf
  | twisted _ htwist => exact twistWords_wf hwf htwist

theorem populated (h : s.DrawsFrom m c) (hpop : s.words.populated) : m.populated := by
  cases h with
  | buffered => exact hpop
  | twisted _ htwist => exact twistWords_populated hpop htwist

/-- An accepted NEXT of a seeded block is the plain draw from that array at that cursor. -/
theorem exec_next (h : s.DrawsFrom m c) (hready : s.cmdReady = true) (hseeded : s.seeded = true) :
    exec .next s = drawWord ((s.withWords m).withCursor c) := by
  rw [Machine.exec_next, execNext, ifAccepted_of_ready hready, hseeded, if_pos rfl, drawLazily]
  cases h with
  | buffered hcursor => exact if_neg hcursor
  | twisted hcursor htwist => rw [if_pos hcursor, State.twist_eq_some.mpr ⟨m, htwist, rfl⟩]

/-- Where the entry at the cursor holds a word, the NEXT completes. -/
theorem exec_next_of_read (h : s.DrawsFrom m c) (hready : s.cmdReady = true) (hseeded : s.seeded = true) {y : Word}
    (hread : m.read (drawIndex c) = some y) : exec .next s = .next (s.drawn m c y) := by
  rw [h.exec_next hready hseeded, drawWord, State.withCursor_words, State.withWords_words, State.withCursor_cursor,
    hread]
  rfl

/-- In a populated array the entry at the cursor holds a word. -/
theorem exists_read (h : s.DrawsFrom m c) (hpop : s.words.populated) : ∃ y, m.read (drawIndex c) = some y :=
  Option.isSome_iff_exists.mp (h.populated hpop _)

end State.DrawsFrom

/-- A populated array can be drawn from: where a twist is due, it completes. -/
theorem State.exists_drawsFrom {s : State} (hpop : s.words.populated) : ∃ m c, s.DrawsFrom m c := by
  by_cases hcursor : s.cursor = Config.exhausted
  · obtain ⟨m, htwist⟩ := exists_twistWords hpop
    exact ⟨m, 0, .twisted hcursor htwist⟩
  · exact ⟨s.words, s.cursor, .buffered hcursor⟩

/-! ## The effect of an accepted command -/

/-- What an accepted command makes of the state. -/
inductive Executes (s : State) : Instr → State → Prop where
  | seed (v : Word) : Executes s (.seed v) (s.seedWith v)
  | raise (hseeded : s.seeded = false) : Executes s .next s.raiseDrawBeforeSeed
  | draw {m : Memory} {c : Cursor} {y : Word} (hseeded : s.seeded = true) (hfrom : s.DrawsFrom m c)
      (hread : m.read (drawIndex c) = some y) : Executes s .next (s.drawn m c y)

/-- An accepted command has one of these effects. -/
theorem exec_of_executes {s t : State} {i : Instr} (hready : s.cmdReady = true) (h : Executes s i t) :
    exec i s = .next t := by
  cases h with
  | seed v => exact exec_seed_of_ready hready v
  | raise hseeded => exact exec_next_of_unseeded hready hseeded
  | draw hseeded hfrom hread => exact hfrom.exec_next_of_read hready hseeded hread

/-- Everything a command can do in a block that accepts it: besides these effects there is only the model's stop. -/
theorem executes_of_exec {s t : State} {i : Instr} (hready : s.cmdReady = true) (h : exec i s = .next t) :
    Executes s i t := by
  have draws {m : Memory} {c : Cursor} (hseeded : s.seeded = true) (hfrom : s.DrawsFrom m c)
      (hnext : exec .next s = .next t) : Executes s .next t := by
    cases hread : m.read (drawIndex c) with
    | none =>
      rw [hfrom.exec_next hready hseeded, drawWord, State.withCursor_words, State.withWords_words,
        State.withCursor_cursor, hread] at hnext
      cases hnext
    | some y =>
      rw [hfrom.exec_next_of_read hready hseeded hread] at hnext
      cases hnext
      exact .draw hseeded hfrom hread
  cases i with
  | seed v =>
    rw [exec_seed_of_ready hready v] at h
    cases h
    exact .seed v
  | next =>
    rcases execNext_cases s with
      ⟨hno, -⟩ | ⟨-, hseeded, hnext⟩ | ⟨-, hseeded, hcursor, -⟩ | ⟨-, hseeded, hcursor, m, htwist, -⟩ |
        ⟨-, -, -, -, hfault⟩
    · rw [hready] at hno
      cases hno
    · rw [exec_next, hnext] at h
      cases h
      exact .raise hseeded
    · exact draws hseeded (.buffered hcursor) h
    · exact draws hseeded (.twisted hcursor htwist) h
    · rw [exec_next, hfault] at h
      cases h

/-- A command that a block accepts completes, if the array of a seeded block is populated. -/
theorem exists_executes {s : State} (hpop : s.seeded = true → s.words.populated) (i : Instr) :
    ∃ t, Executes s i t := by
  cases i with
  | seed v => exact ⟨_, .seed v⟩
  | next =>
    cases hseeded : s.seeded with
    | false => exact ⟨_, .raise hseeded⟩
    | true =>
      obtain ⟨m, c, hfrom⟩ := State.exists_drawsFrom (hpop hseeded)
      obtain ⟨y, hread⟩ := hfrom.exists_read (hpop hseeded)
      exact ⟨_, .draw hseeded hfrom hread⟩

end Sys2Proof.Machine
end

section
/-! SUPPORT. What one step can do, as one relation with a case for each: nothing driven, a reset, an accepted command, a
response taken, and an edge that changes nothing (30_encoding.md section 4). -/

namespace Sys2Proof.Machine

/-- What one step makes of the state. -/
inductive StepsTo (s : State) : State → Prop where
  | idle (hedges : s.edges = []) : StepsTo s s
  | reset {e : Edge} {rest : List Edge} (hedges : s.edges = e :: rest) (hrst : e.rst = true) :
      StepsTo s (s.withEdges rest).resetBlock
  | command {e : Edge} {rest : List Edge} {t : State} (hedges : s.edges = e :: rest) (hrst : e.rst = false)
      (hvalid : e.cmdValid = true) (hready : s.cmdReady = true)
      (heffect : Executes (s.withEdges rest) (decode e.cmd) t) : StepsTo s t
  | take {e : Edge} {rest : List Edge} (hedges : s.edges = e :: rest) (hrst : e.rst = false)
      (htake : e.rspReady = true) : StepsTo s (s.withEdges rest).takeResponse
  | hold {e : Edge} {rest : List Edge} (hedges : s.edges = e :: rest) (hrst : e.rst = false)
      (htake : e.rspReady = false) : StepsTo s (s.withEdges rest)

/-- Everything a step that answers a next state can have done. -/
theorem stepsTo_of_step {s t : State} (h : step s = .next t) : StepsTo s t := by
  cases hedges : s.edges with
  | nil =>
    rw [step_no_edge hedges] at h
    cases h
    exact .idle hedges
  | cons e rest =>
    rw [step_edge hedges] at h
    rcases edgeStep_cases e (s.withEdges rest) with
      ⟨hrst, hstep⟩ | ⟨hrst, hvalid, hready, hstep⟩ | ⟨hrst, -, htake, hstep⟩ | ⟨hrst, -, htake, hstep⟩ <;>
      rw [hstep] at h
    · cases h
      exact .reset hedges hrst
    · exact .command hedges hrst hvalid hready (executes_of_exec hready h)
    · cases h
      exact .take hedges hrst htake
    · cases h
      exact .hold hedges hrst htake

/-- An edge out of reset that presents a command to an accepting block runs it (30_encoding.md R69). -/
theorem step_of_accepted {s : State} {e : Edge} {rest : List Edge} (hedges : s.edges = e :: rest)
    (hrst : e.rst = false) (hvalid : e.cmdValid = true) (hready : s.cmdReady = true) :
    step s = exec (decode e.cmd) (s.withEdges rest) := by
  rw [step_edge hedges]
  simp [edgeStep, hrst, hvalid, hready]

/-- An edge out of reset at a block that accepts nothing transfers the response, if the host is ready for it
(30_encoding.md R70). -/
theorem step_of_not_ready {s : State} {e : Edge} {rest : List Edge} (hedges : s.edges = e :: rest)
    (hrst : e.rst = false) (hready : s.cmdReady = false) :
    step s = .next (if e.rspReady then (s.withEdges rest).takeResponse else s.withEdges rest) := by
  rw [step_edge hedges]
  cases htake : e.rspReady <;> simp [edgeStep, hrst, hready, htake]

/-- Where every accepted command completes, every step does. -/
theorem exists_step {s : State} (hpop : s.seeded = true → s.words.populated) : ∃ t, step s = .next t := by
  cases hedges : s.edges with
  | nil => exact ⟨s, step_no_edge hedges⟩
  | cons e rest =>
    rw [step_edge hedges]
    rcases edgeStep_cases e (s.withEdges rest) with
      ⟨-, hstep⟩ | ⟨-, -, hready, hstep⟩ | ⟨-, -, -, hstep⟩ | ⟨-, -, -, hstep⟩
    · exact ⟨_, hstep⟩
    · obtain ⟨t, heffect⟩ := exists_executes (s := s.withEdges rest) hpop (decode e.cmd)
      exact ⟨t, hstep.trans (exec_of_executes hready heffect)⟩
    · exact ⟨_, hstep⟩
    · exact ⟨_, hstep⟩

/-- `cmd_ready` is 0 after a fault and while a response waits (30_encoding.md R72). -/
theorem State.cmdReady_of_fault {s : State} (h : s.fault = true) : s.cmdReady = false := by
  simp [State.cmdReady, h]

theorem State.cmdReady_of_rsp {s : State} {v : Word} (h : s.rsp = some v) : s.cmdReady = false := by
  simp [State.cmdReady, h]

/-- The transfer of the response, field by field (30_encoding.md R70). -/
theorem State.takeResponse_eq (s : State) :
    s.takeResponse = { s with rsp := none, responses := s.responses ++ s.rsp.toList } := by
  obtain ⟨_, _, _, _, _, rsp, _, responses⟩ := s
  cases rsp with
  | none => exact congrArg _ (List.append_nil responses).symm
  | some v => rfl

/-- Out of HALTED and UNSEEDED the cursor decides (10_state.md R29). -/
theorem State.condition_of_seeded {s : State} (hfault : s.fault = false) (hseeded : s.seeded = true) :
    s.condition = if s.cursor = Config.exhausted then .needsTwist else .hasBufferedWords := by
  simp [State.condition, hfault, hseeded]

theorem State.condition_eq_halted_iff (s : State) : s.condition = .halted ↔ s.fault = true := by
  cases hfault : s.fault with
  | true => simp [State.condition, hfault]
  | false =>
    cases hseeded : s.seeded with
    | false => simp [State.condition, hfault, hseeded]
    | true =>
      rw [State.condition_of_seeded hfault hseeded]
      split <;> simp

theorem State.condition_eq_hasBufferedWords_iff (s : State) :
    s.condition = .hasBufferedWords ↔ s.fault = false ∧ s.seeded = true ∧ s.cursor ≠ Config.exhausted := by
  cases hfault : s.fault with
  | true => simp [State.condition, hfault]
  | false =>
    cases hseeded : s.seeded with
    | false => simp [State.condition, hfault, hseeded]
    | true =>
      rw [State.condition_of_seeded hfault hseeded]
      split <;> simp_all

end Sys2Proof.Machine
end

section
/-! PROOFS. The statements of 30_encoding.md section 4 and 60_exceptions.md about the handshake, one step at a time. -/

open Sys2Proof Sys2Proof.Machine

/-- Settles O7: out of reset an edge looks first at whether it presents a command that the block accepts. -/
theorem stepRunsTheAcceptedCommand : Obligations.StepRunsTheAcceptedCommand := fun _ _ _ => step_of_accepted

/-- Settles O8: `withFetchWord` takes the waiting response, so that a block without a fault accepts, and puts the word
at the very next edge. -/
theorem placedWordRunsAtTheNextStep : Obligations.PlacedWordRunsAtTheNextStep := by
  intro s nbits w hfault hw hfits
  have hready : (s.withFetchWord nbits w).cmdReady = true :=
    (State.cmdReady_iff _).mpr ⟨s.takeResponse_fault.trans hfault, s.takeResponse_rsp⟩
  have hstate : (s.withFetchWord nbits w).withEdges s.edges = s.takeResponse :=
    (congrArg s.takeResponse.withEdges s.takeResponse_edges).symm
  have hedges : (s.withFetchWord nbits w).edges = presentEdge (BitVec.ofNat 33 w) :: s.edges := by
    rw [State.withFetchWord, tableCmd_of_lt hw, State.present_edges]
  refine ⟨_, decodeTableWord_of_lt hw hfits, rfl, ?_⟩
  rw [step_of_accepted hedges rfl rfl hready, hstate, State.takeResponse_eq]
  rfl

/-- Settles O9: both conditions make `cmd_ready` 0, and no command has an effect then. -/
theorem unacceptedCommandHasNoEffect : Obligations.UnacceptedCommandHasNoEffect := by
  intro s i hblocked
  have hready : s.cmdReady = false := by
    rcases hblocked with hfault | hrsp
    · exact State.cmdReady_of_fault hfault
    · obtain ⟨v, hv⟩ := Option.ne_none_iff_exists'.mp hrsp
      exact State.cmdReady_of_rsp hv
  exact ⟨hready, exec_of_not_ready hready i⟩

/-- Settles O10: a step with no edge to take leaves the state as it is. -/
theorem idleBlockHoldsItsState : Obligations.IdleBlockHoldsItsState := fun _ => step_no_edge

/-- Settles O13: a waiting response keeps `cmd_ready` at 0, so an edge out of reset can only transfer it
(30_encoding.md R70, R72). -/
theorem responseIsHeldUntilTaken : Obligations.ResponseIsHeldUntilTaken := by
  intro s v e rest hrsp hedges hrst
  have hready : s.cmdReady = false := State.cmdReady_of_rsp hrsp
  have hstep := step_of_not_ready hedges hrst hready
  refine ⟨fun idle => ?_, fun htake => ?_, fun htake => ?_⟩
  · rw [State.outputs_running_cmdReady]
    exact ⟨by simp [State.outputs, hrsp], by simp [State.outputs, hrsp], hready⟩
  · rw [hstep, htake]
    rfl
  · rw [hstep, htake, if_pos rfl, State.takeResponse_eq, State.withEdges_rsp, hrsp]
    rfl

/-- Settles O30: after the fault `cmd_ready` is 0, so an edge out of reset can at most transfer a response, which
changes none of the bits, the array and the cursor (60_exceptions.md R126). -/
theorem haltedIsLeftOnlyByReset : Obligations.HaltedIsLeftOnlyByReset := by
  intro s e rest hfault hedges hrst
  refine ⟨s.condition_eq_halted_iff.mpr hfault, _,
    step_of_not_ready hedges hrst (State.cmdReady_of_fault hfault), ?_⟩
  cases e.rspReady with
  | false => exact ⟨rfl, rfl, rfl, hfault, rfl, State.cmdReady_of_fault hfault, rfl⟩
  | true =>
    simp only [if_true, State.takeResponse_words, State.takeResponse_cursor, State.takeResponse_seeded,
      State.takeResponse_fault, State.takeResponse_faultCode, State.takeResponse_edges]
    exact ⟨rfl, rfl, rfl, hfault, rfl, State.cmdReady_of_fault ((State.takeResponse_fault _).trans hfault), rfl⟩

end

section
/-! SUPPORT. A SEED as a function of its operand: over canonical arrays the array it leaves does not depend on the array
before it, and is the one-sweep form of the recurrence (40_seed.md R82). -/

namespace Sys2Proof.Machine

/-- A SEED leaves the words of the recurrence. -/
theorem seedWords_holds (v : Word) (m : Memory) : (seedWords v m).Holds (seedWord v) := fun _ => seedWords_read v m

/-- Two arrays that hold the same words read the same everywhere. -/
theorem Memory.Holds.read_eq {m n : Memory} {w w' : Nat → Word} (hm : m.Holds w) (hn : n.Holds w')
    (h : ∀ i < 624, w i = w' i) (i : Index) : m.read i = n.read i := by
  rw [← indexOf_self i, hm i.val i.isLt, hn i.val i.isLt, h i.val i.isLt]

/-- A canonical array is determined by the words it holds. -/
theorem Memory.Holds.unique {m n : Memory} {w w' : Nat → Word} (hm : m.Holds w) (hn : n.Holds w') (hmwf : m.wf)
    (hnwf : n.wf) (h : ∀ i < 624, w i = w' i) : m = n :=
  Memory.ext_of_wf hmwf hnwf (hm.read_eq hn h)

/-- The array a SEED leaves does not depend on the canonical array before it (40_seed.md R82). -/
theorem seedWords_of_wf (v : Word) {m n : Memory} (hm : m.wf) (hn : n.wf) : seedWords v m = seedWords v n :=
  (seedWords_holds v m).unique (seedWords_holds v n) (seedWords_wf v hm) (seedWords_wf v hn) fun _ _ => rfl

/-- A SEED sets three fields and leaves the rest (40_seed.md R80, R83). -/
theorem State.seedWith_eq (s : State) (v : Word) :
    s.seedWith v = { s with words := seedWords v s.words, cursor := Config.exhausted, seeded := true } := rfl

/-- A second SEED overwrites all that the first wrote. -/
theorem State.seedWith_seedWith {s : State} (hwf : s.words.wf) (a b : Word) :
    (s.seedWith a).seedWith b = s.seedWith b := by
  have hwords : seedWords b (s.seedWith a).words = seedWords b s.words :=
    seedWords_of_wf b (seedWords_wf a hwf) hwf
  rw [State.seedWith_eq (s.seedWith a), State.seedWith_eq s b, hwords]
  rfl

/-! ## The one-sweep form -/

/-- The sweep starting at index `i` lists indices from `i` on. -/
theorem le_of_mem_seedCellsFrom {n i : Nat} {w : Word} {cell : Index × Word} (h : cell ∈ seedCellsFrom n i w)
    (hrange : i + n ≤ 624) : i ≤ cell.1.val := by
  induction n generalizing i w with
  | zero => cases h
  | succ n ih =>
    rcases List.mem_cons.mp h with rfl | hrest
    · rw [indexOf_val, Nat.mod_eq_of_lt (by omega)]
    · exact Nat.le_of_succ_le (ih hrest (by omega))

/-- The sweep lists its indices in rising order. -/
theorem seedCellsFrom_wf {n i : Nat} (w : Word) (hrange : i + n ≤ 624) : (seedCellsFrom n i w).wf := by
  induction n generalizing i w with
  | zero => exact Memory.wf_nil
  | succ n ih =>
    refine List.pairwise_cons.mpr ⟨fun cell hcell => ?_, ih _ (by omega)⟩
    have hle := le_of_mem_seedCellsFrom hcell (by omega)
    rw [Fin.lt_def, indexOf_val, Nat.mod_eq_of_lt (by omega)]
    omega

/-- The sweep that starts with the recurrence's word lists the recurrence's words. -/
theorem seedCellsFrom_read (v : Word) {n i j : Nat} (hle : i ≤ j) (hlt : j < i + n) (hrange : i + n ≤ 624) :
    (seedCellsFrom n i (seedWord v i)).read (indexOf j) = some (seedWord v j) := by
  induction n generalizing i with
  | zero => omega
  | succ n ih =>
    rw [seedCellsFrom, Memory.read]
    rcases Nat.eq_or_lt_of_le hle with rfl | hlt'
    · exact if_pos rfl
    · have hne : indexOf i ≠ indexOf j := fun h => hlt'.ne ((indexOf_inj (by omega) (by omega)).mp h)
      rw [if_neg hne, ← seedWord_succ]
      exact ih hlt' (by omega) (by omega)

theorem seedCells_holds (v : Word) : (seedCells v).Holds (seedWord v) := fun i hi =>
  seedCellsFrom_read v (Nat.zero_le i) (by omega) (by decide)

end Sys2Proof.Machine
end

section
/-! PROOFS. The statements of 40_seed.md about a SEED as a function of its operand. -/

open Sys2Proof Sys2Proof.Machine

/-- Settles O17: the arrays are the seeded ones of two canonical arrays, the cursor and the bit are constants. -/
theorem seedIgnoresThePriorState : Obligations.SeedIgnoresThePriorState := by
  intro s₁ s₂ value hready₁ hready₂ hwf₁ hwf₂
  exact ⟨_, _, exec_seed_of_ready hready₁ value, exec_seed_of_ready hready₂ value,
    seedWords_of_wf value hwf₁ hwf₂, (s₁.seedWith_cursor value).trans (s₂.seedWith_cursor value).symm,
    (s₁.seedWith_seeded value).trans (s₂.seedWith_seeded value).symm⟩

/-- Settles O18: a SEED leaves the block accepting, and the second SEED overwrites everything the first wrote
(40_seed.md R85). -/
theorem secondSeedOverwritesTheFirst : Obligations.SecondSeedOverwritesTheFirst := by
  intro s a b hready hwf
  refine ⟨s.seedWith a, s.seedWith b, exec_seed_of_ready hready a, ?_, exec_seed_of_ready hready b⟩
  rw [exec_seed_of_ready (s := s.seedWith a) hready b, State.seedWith_seedWith hwf]

/-- Settles O19: both arrays are canonical and hold the words of the recurrence. -/
theorem seedWritesAreTheOneSweepForm : Obligations.SeedWritesAreTheOneSweepForm := by
  intro value m hwf
  exact (seedWords_holds value m).unique (seedCells_holds value) (seedWords_wf value hwf)
    (seedCellsFrom_wf value (by decide)) fun _ _ => rfl

end

section
/-! SUPPORT. Which bits of the old array the pass reads: bits 30:0 of `words[0]` are dropped by step 0, which then
overwrites them (41_twist.md R97), and an array of zeros stays one. -/

namespace Sys2Proof.Machine

/-- A populated array holds the words of some function. -/
theorem Memory.exists_holds {m : Memory} (h : m.populated) : ∃ w, m.Holds w := by
  choose w hw using fun i => Option.isSome_iff_exists.mp (h i)
  exact ⟨fun i => w (indexOf i), fun i _ => hw (indexOf i)⟩

/-- Of its first operand a twist step reads bit 31 alone (41_twist.md R91). -/
theorem mix_congr_left {a a' : Word} (h : a.getLsbD 31 = a'.getLsbD 31) (b c : Word) : mix a b c = mix a' b c := by
  have hupper : a &&& upperMask = a' &&& upperMask := by
    have hmask (x : Word) : x &&& upperMask = if x.getLsbD 31 then upperMask else 0#32 := BitVec.and_twoPow x 31
    rw [hmask, hmask, h]
  have hcombine : combine a b = combine a' b := by rw [combine, combine, hupper]
  rw [mix, mix, hcombine]

/-- Once the pass has left the same words behind, it goes on the same. -/
theorem passWords_congr {old old' : Nat → Word} {k : Nat} (h : passWords old k = passWords old' k) (n : Nat) :
    passWords old (k + n) = passWords old' (k + n) := by
  induction n with
  | zero => exact h
  | succ n ih => rw [← Nat.add_assoc, passWords_succ, passWords_succ, ih]

/-- Step 0 reads bit 31 of `words[0]` and overwrites the rest, so no later step sees it. -/
theorem passWords_update_zero {old : Nat → Word} {a : Word} (h : a.getLsbD 31 = (old 0).getLsbD 31) :
    passWords (Function.update old 0 a) 624 = passWords old 624 := by
  have hword : stepWord (Function.update old 0 a) 0 = stepWord old 0 := by
    simp only [stepWord]
    rw [Function.update_self, Function.update_of_ne (by decide), Function.update_of_ne (by decide)]
    exact mix_congr_left h _ _
  have hfirst : passWords (Function.update old 0 a) 1 = passWords old 1 := by
    simp only [passWords, hword, Function.update_idem]
  exact passWords_congr hfirst 623

/-- The pass over zeros writes zeros. -/
theorem passWords_zero (k : Nat) : passWords (fun _ => 0#32) k = fun _ => 0#32 := by
  induction k with
  | zero => rfl
  | succ k ih =>
    have hword : stepWord (fun _ => 0#32) k = 0#32 := by
      rw [stepWord]
      decide
    rw [passWords_succ, ih, hword]
    exact Function.update_eq_self k fun _ => 0#32

end Sys2Proof.Machine
end

section
/-! PROOFS. The statements of 41_twist.md R97. -/

open Sys2Proof Sys2Proof.Machine

/-- Settles O22: the second array holds the words of the first but for index 0, and the pass leaves the same words. -/
theorem twistIgnoresLowBitsOfWordZero : Obligations.TwistIgnoresLowBitsOfWordZero := by
  intro m₁ m₂ a₁ a₂ hpop hother hread₁ hread₂ hbit
  obtain ⟨old, hold⟩ := Memory.exists_holds hpop
  have hzero : old 0 = a₁ := Option.some.inj ((hold 0 (by decide)).symm.trans hread₁)
  have hold₂ : m₂.Holds (Function.update old 0 a₂) := by
    intro i hi
    by_cases hi0 : i = 0
    · rw [hi0, Function.update_self]
      exact hread₂
    · have hne : indexOf i ≠ 0 := mt (indexOf_inj hi (by decide : 0 < 624)).mp hi0
      rw [Function.update_of_ne hi0, ← hother _ hne, hold i hi]
  obtain ⟨n₁, htwist₁, hheld₁⟩ := twistWords_of_holds hold
  obtain ⟨n₂, htwist₂, hheld₂⟩ := twistWords_of_holds hold₂
  rw [passWords_update_zero (by rw [hzero, hbit])] at hheld₂
  exact ⟨n₁, n₂, htwist₁, htwist₂, hheld₁.read_eq hheld₂ fun _ _ => rfl⟩

/-- Settles O23: the pass over zeros leaves zeros. -/
theorem twistOfZerosIsZeros : Obligations.TwistOfZerosIsZeros := by
  intro m hzeros
  obtain ⟨n, htwist, hheld⟩ := twistWords_of_holds (m := m) (old := fun _ => 0#32) fun i _ => hzeros (indexOf i)
  rw [passWords_zero] at hheld
  exact ⟨n, htwist, fun i => indexOf_self i ▸ hheld i.val i.isLt⟩

end

section
/-! SUPPORT. Each step of TEMPER is undone by none but one word: a linear step that sends no word but 0 to 0 is
injective. -/

namespace Sys2Proof.Machine

/-- A linear function is injective when it sends no word but 0 to 0. -/
theorem injective_of_linear {f : Word → Word} (hxor : ∀ a b, f (a ^^^ b) = f a ^^^ f b)
    (hker : ∀ y, f y = 0#32 → y = 0#32) : Function.Injective f := by
  intro a b h
  refine BitVec.xor_eq_zero_iff.mp (hker _ ?_)
  rw [hxor, h, BitVec.xor_self]

/-- A word that equals its own right shift is 0: each bit is the bit `k` places above, and there is none above
bit 31. -/
theorem eq_zero_of_xor_ushiftRight {y : Word} {k : Nat} (hk : 0 < k) (h : y ^^^ (y >>> k) = 0#32) : y = 0#32 := by
  have hshift : y = y >>> k := BitVec.xor_eq_zero_iff.mp h
  have hzero (n j : Nat) (hj : 32 ≤ j + n) : y.getLsbD j = false := by
    induction n generalizing j with
    | zero => exact BitVec.getLsbD_of_ge y j hj
    | succ n ih =>
      rw [hshift, BitVec.getLsbD_ushiftRight]
      exact ih (k + j) (by omega)
  exact BitVec.eq_of_getLsbD_eq fun j _ => by
    rw [hzero 32 j (Nat.le_add_left 32 j), BitVec.getLsbD_zero]

/-- A word that equals its own masked left shift is 0: each bit is, at most, the bit `k` places below, and there is none
below bit 0. -/
theorem eq_zero_of_xor_shiftLeft_and {y mask : Word} {k : Nat} (hk : 0 < k)
    (h : y ^^^ ((y <<< k) &&& mask) = 0#32) : y = 0#32 := by
  have hshift : y = (y <<< k) &&& mask := BitVec.xor_eq_zero_iff.mp h
  have hzero (j : Nat) : y.getLsbD j = false := by
    induction j using Nat.strong_induction_on with
    | _ j ih =>
      rw [hshift, BitVec.getLsbD_and, BitVec.getLsbD_shiftLeft]
      by_cases hj : j < k
      · simp [hj]
      · simp [ih (j - k) (by omega)]
  exact BitVec.eq_of_getLsbD_eq fun j _ => by
    rw [hzero j, BitVec.getLsbD_zero]

/-- TEMPER is injective, as its four steps are. -/
theorem temper_injective : Function.Injective temper := by
  have h1 : Function.Injective temper1 :=
    injective_of_linear temper1_xor fun _ => eq_zero_of_xor_ushiftRight (by decide)
  have h2 : Function.Injective temper2 :=
    injective_of_linear temper2_xor fun _ => eq_zero_of_xor_shiftLeft_and (by decide)
  have h3 : Function.Injective temper3 :=
    injective_of_linear temper3_xor fun _ => eq_zero_of_xor_shiftLeft_and (by decide)
  have h4 : Function.Injective temper4 :=
    injective_of_linear temper4_xor fun _ => eq_zero_of_xor_ushiftRight (by decide)
  exact h4.comp (h3.comp (h2.comp h1))

end Sys2Proof.Machine
end

section
/-! PROOFS. The statement about what TEMPER keeps. -/

open Sys2Proof Sys2Proof.Machine

/-- Settles O26: TEMPER is a composition of four injective steps. -/
theorem temperIsInjective : Obligations.TemperIsInjective := fun _ _ h => temper_injective h

end

section
/-! SUPPORT. Each effect of a step keeps the invariant: the reset event, a response taken, and the three effects of an
accepted command. What the host drives next is no part of the invariant. -/

namespace Sys2Proof.Machine

/-- The invariant holds after reset. -/
theorem State.reset_inv : State.reset.Inv where
  array := ⟨Memory.wf_nil, (nomatch ·)⟩
  fault := ⟨rfl, (nomatch ·)⟩
  draw := ⟨fun _ => rfl, fun _ => rfl, fun _ => rfl, (by decide : Config.exhausted ≠ 0), fun _ => (nomatch ·)⟩

namespace State.Inv
variable {s : State}

theorem withEdges (h : s.Inv) (es : List Edge) : (s.withEdges es).Inv :=
  ⟨⟨h.array.wf, h.array.populated⟩, ⟨h.fault.code, h.fault.unseeded⟩,
    ⟨h.draw.unseededCursor, h.draw.unseededWords, h.draw.unseededRsp, h.draw.cursorPos, h.draw.rspDrawn⟩⟩

/-- Taking the response empties the channel and leaves what the rest of the invariant speaks of. -/
theorem takeResponse (h : s.Inv) : s.takeResponse.Inv := by
  rw [State.takeResponse_eq]
  exact ⟨⟨h.array.wf, h.array.populated⟩, ⟨h.fault.code, h.fault.unseeded⟩,
    ⟨h.draw.unseededCursor, h.draw.unseededWords, fun _ => rfl, h.draw.cursorPos, fun _ => (nomatch ·)⟩⟩

/-- A SEED populates the array, keeps it canonical, and leaves the cursor 624 and, in an accepting block, no
response. -/
theorem seedWith (h : s.Inv) (hready : s.cmdReady = true) (v : Word) : (s.seedWith v).Inv := by
  obtain ⟨hfault, hrsp⟩ := State.cmdReady_iff s |>.mp hready
  refine ⟨⟨seedWords_wf v h.array.wf, fun _ => seedWords_populated v s.words⟩, ⟨h.fault.code, ?_⟩,
    ⟨(nomatch ·), (nomatch ·), (nomatch ·), (by decide : Config.exhausted ≠ 0), ?_⟩⟩
  · rw [State.seedWith_fault, hfault]
    exact (nomatch ·)
  · rw [State.seedWith_rsp, hrsp]
    exact fun _ => (nomatch ·)

/-- The fault is recorded with its code, in a block that is not seeded. -/
theorem raiseDrawBeforeSeed (h : s.Inv) (hseeded : s.seeded = false) : s.raiseDrawBeforeSeed.Inv :=
  ⟨⟨h.array.wf, h.array.populated⟩, ⟨rfl, fun _ => hseeded⟩,
    ⟨h.draw.unseededCursor, h.draw.unseededWords, h.draw.unseededRsp, h.draw.cursorPos, h.draw.rspDrawn⟩⟩

/-- A draw advances the cursor to one past the index whose tempered word it responds with. -/
theorem drawn (h : s.Inv) (hseeded : s.seeded = true) {m : Memory} {c : Cursor} {y : Word} (hfrom : s.DrawsFrom m c)
    (hread : m.read (drawIndex c) = some y) : (s.drawn m c y).Inv := by
  have unseeded {p : Prop} (hno : (s.drawn m c y).seeded = false) : p := by
    rw [State.drawn_seeded, hseeded] at hno
    cases hno
  have hcursor : (s.drawn m c y).cursor.val = c.val + 1 := hfrom.cursor_succ_val
  refine ⟨⟨hfrom.wf h.array.wf, fun _ => hfrom.populated (h.array.populated hseeded)⟩,
    ⟨h.fault.code, h.fault.unseeded⟩, ⟨unseeded, unseeded, unseeded, fun hzero => ?_, fun v hv => ⟨y, ?_, ?_⟩⟩⟩
  · rw [hzero] at hcursor
    cases hcursor
  · rw [hcursor]
    exact hread
  · exact (Option.some.inj hv).symm

/-- Every effect of an accepted command keeps the invariant. -/
theorem executes (h : s.Inv) (hready : s.cmdReady = true) {i : Instr} {t : State} (heffect : Executes s i t) :
    t.Inv := by
  cases heffect with
  | seed v => exact h.seedWith hready v
  | raise hseeded => exact h.raiseDrawBeforeSeed hseeded
  | draw hseeded hfrom hread => exact h.drawn hseeded hfrom hread

/-- Every step keeps the invariant. -/
theorem stepsTo (h : s.Inv) {t : State} (hstep : StepsTo s t) : t.Inv := by
  cases hstep with
  | idle => exact h
  | reset => exact State.reset_inv.withEdges _
  | @command _ rest _ _ _ _ hready heffect => exact (h.withEdges rest).executes hready heffect
  | take => exact (h.withEdges _).takeResponse
  | hold => exact h.withEdges _

end State.Inv

end Sys2Proof.Machine
end

section
/-! PROOFS. The statements about one NEXT of a seeded block (42_draw_tempering.md) and about what every step keeps. -/

open Sys2Proof Sys2Proof.Machine

/-- Settles O27: with the cursor below 624 the draw is from the block's own array at its own cursor. -/
theorem nextDrawsTheBufferedWord : Obligations.NextDrawsTheBufferedWord := by
  intro s y hready hseeded hcursor hread
  have hfrom : s.DrawsFrom s.words s.cursor := .buffered (Fin.ne_of_val_ne (by omega : s.cursor.val ≠ 624))
  exact ⟨_, hfrom.exec_next_of_read hready hseeded hread, rfl, hfrom.cursor_succ_val, fun _ => rfl, rfl, rfl, rfl, rfl,
    rfl, rfl⟩

/-- Settles O28: with the cursor at 624 the draw is from the twisted array at cursor 0; the twist of a populated array
completes and leaves it populated. -/
theorem nextTwistsThenDraws : Obligations.NextTwistsThenDraws := by
  intro s hready hseeded hcursor hpop
  obtain ⟨m, htwist⟩ := exists_twistWords hpop
  have hfrom : s.DrawsFrom m 0 := .twisted (Fin.ext hcursor) htwist
  obtain ⟨y, hread⟩ := hfrom.exists_read hpop
  exact ⟨s.drawn m 0 y, m, y, htwist, hread, hfrom.exec_next_of_read hready hseeded hread, rfl, rfl, rfl, rfl, rfl, rfl,
    rfl, rfl⟩

/-- Settles O31: after reset the array is empty and every clause about a seeded block, a fault or a response is void. -/
theorem resetMeetsTheInvariant : Obligations.ResetMeetsTheInvariant := State.reset_inv

/-- Settles O32: each of the effects a step can have keeps the invariant. -/
theorem stepKeepsTheInvariant : Obligations.StepKeepsTheInvariant := fun _ _ hinv hstep =>
  hinv.stepsTo (stepsTo_of_step hstep)

/-- Settles O33: the one stop is at an entry that holds no value, and a seeded block has none. -/
theorem stepNeverStopsUnderTheInvariant : Obligations.StepNeverStopsUnderTheInvariant := fun _ hinv =>
  exists_step hinv.array.populated

end

section
/-! SUPPORT. The conditions of the controller before and after a command (10_state.md R29, 42_draw_tempering.md R111),
and the bits that no command clears (10_state.md R25, R26). -/

namespace Sys2Proof.Machine

/-- A block with no response waiting accepts commands in every condition but HALTED. -/
theorem State.cmdReady_of_condition {s : State} (hrsp : s.rsp = none) (h : s.condition ≠ .halted) :
    s.cmdReady = true := by
  have hfault : s.fault = false := Bool.eq_false_iff.mpr (mt s.condition_eq_halted_iff.mpr h)
  exact s.cmdReady_iff.mpr ⟨hfault, hrsp⟩

/-- An accepted NEXT of a seeded, populated block completes, and the condition it leads to says whether it drew the last
word of the generation. -/
theorem State.DrawsFrom.exists_exec_next {s : State} {m : Memory} {c : Cursor} (hfrom : s.DrawsFrom m c)
    (hready : s.cmdReady = true) (hseeded : s.seeded = true) (hpop : s.words.populated) :
    ∃ t, exec .next s = .next t ∧
      t.condition = (if c.val = 623 then .needsTwist else .hasBufferedWords) ∧ t.cursor.val = c.val + 1 := by
  obtain ⟨y, hread⟩ := hfrom.exists_read hpop
  obtain ⟨hfault, -⟩ := s.cmdReady_iff.mp hready
  have hcursor := hfrom.cursor_succ_val
  refine ⟨_, hfrom.exec_next_of_read hready hseeded hread, ?_, hcursor⟩
  have hlast : (c + 1 = Config.exhausted) = (c.val = 623) := by
    rw [Fin.ext_iff, hcursor]
    exact propext Nat.succ_inj
  have hcond := State.condition_of_seeded (s := s.drawn m c y) hfault hseeded
  simpa only [State.drawn_cursor, hlast] using hcond

/-- A step either takes a reset edge or clears neither `seeded` nor `fault`. -/
theorem StepsTo.rst_or_keeps_bits {s t : State} (h : StepsTo s t) :
    (∃ e rest, s.edges = e :: rest ∧ e.rst = true) ∨
      ((s.seeded = true → t.seeded = true) ∧ (s.fault = true → t.fault = true)) := by
  cases h with
  | idle => exact .inr ⟨id, id⟩
  | reset hedges hrst => exact .inl ⟨_, _, hedges, hrst⟩
  | @command e _ _ _ _ _ _ heffect =>
    refine .inr ?_
    generalize decode e.cmd = i at heffect
    cases heffect with
    | seed => exact ⟨fun _ => rfl, id⟩
    | raise => exact ⟨id, fun _ => rfl⟩
    | draw => exact ⟨id, id⟩
  | @take _ rest =>
    let u := s.withEdges rest
    exact .inr ⟨u.takeResponse_seeded.trans, u.takeResponse_fault.trans⟩
  | hold => exact .inr ⟨id, id⟩

end Sys2Proof.Machine
end

section
/-! PROOFS. The statements about which command or edge causes which change. -/

open Sys2Proof Sys2Proof.Machine

/-- Settles O34: each row reads its condition as stored bits and takes the effect of the command in that case
(42_draw_tempering.md R111). -/
theorem controllerFollowsTheTransitionTable : Obligations.ControllerFollowsTheTransitionTable := by
  intro s hinv hrsp
  have draws {cond : Condition} {m : Memory} {c : Cursor} (hcond : s.condition = cond) (hne : cond ≠ .halted)
      (hseeded : s.seeded = true) (hfrom : s.DrawsFrom m c) :=
    hfrom.exists_exec_next (s.cmdReady_of_condition hrsp (hcond ▸ hne)) hseeded (hinv.array.populated hseeded)
  refine ⟨fun hcond v => ?_, fun hcond => ?_, fun hcond => ?_, fun hcond hcursor => ?_, fun hcond hcursor => ?_,
    fun hcond i => ?_⟩
  · have hready := State.cmdReady_of_condition hrsp hcond
    obtain ⟨hfault, -⟩ := s.cmdReady_iff.mp hready
    exact ⟨_, exec_seed_of_ready hready v, State.seedWith_condition hfault v⟩
  · obtain ⟨hfault, hseeded⟩ := s.condition_eq_unseeded_iff.mp hcond
    exact ⟨_, exec_next_of_unseeded (s.cmdReady_iff.mpr ⟨hfault, hrsp⟩) hseeded,
      (State.condition_eq_halted_iff _).mpr s.raiseDrawBeforeSeed_fault⟩
  · obtain ⟨hfault, hseeded, hcursor⟩ := s.condition_eq_needsTwist_iff.mp hcond
    obtain ⟨m, htwist⟩ := exists_twistWords (hinv.array.populated hseeded)
    exact draws hcond (by decide) hseeded (.twisted hcursor htwist)
  · obtain ⟨-, hseeded, hne⟩ := s.condition_eq_hasBufferedWords_iff.mp hcond
    have hdraw := draws hcond (by decide) hseeded (.buffered hne)
    rwa [if_neg (by omega)] at hdraw
  · obtain ⟨-, hseeded, hne⟩ := s.condition_eq_hasBufferedWords_iff.mp hcond
    have hdraw := draws hcond (by decide) hseeded (.buffered hne)
    rwa [if_pos hcursor, hcursor] at hdraw
  · exact exec_of_not_ready (State.cmdReady_of_fault (s.condition_eq_halted_iff.mp hcond)) i

/-- Settles O35: of the effects of a step only the reset event sets `seeded` or `fault` to 0. -/
theorem onlyResetClearsSeededAndFault : Obligations.OnlyResetClearsSeededAndFault := by
  intro s t hstep hcleared
  rcases (stepsTo_of_step hstep).rst_or_keeps_bits with hreset | ⟨hseeded, hfault⟩
  · exact hreset
  · rcases hcleared with ⟨hs, ht⟩ | ⟨hs, ht⟩
    · exact absurd (hseeded hs) (by simp [ht])
    · exact absurd (hfault hs) (by simp [ht])

/-- Settles O36: of the effects of a step only an accepted NEXT in an unseeded block sets `fault`. -/
theorem onlyNextBeforeSeedRaisesTheFault : Obligations.OnlyNextBeforeSeedRaisesTheFault := by
  intro s t hstep hclear hraised
  have unchanged {p : Prop} (h : t.fault = s.fault) : p := by
    rw [h, hclear] at hraised
    cases hraised
  cases stepsTo_of_step hstep with
  | idle => exact unchanged rfl
  | reset => cases hraised
  | @command e rest _ hedges hrst hvalid hready heffect =>
    generalize hcmd : decode e.cmd = i at heffect
    cases heffect with
    | seed => exact unchanged rfl
    | raise hseeded => exact ⟨e, rest, hedges, hrst, hvalid, hready, hcmd, hseeded, rfl⟩
    | draw => exact unchanged rfl
  | take => exact unchanged (State.takeResponse_fault _)
  | hold => exact unchanged rfl

/-- Settles O37: of the effects of a step only the reset event, SEED and a draw that twists write the array. -/
theorem onlyResetSeedAndTwistChangeWords : Obligations.OnlyResetSeedAndTwistChangeWords := by
  intro s t hstep hchanged
  cases stepsTo_of_step hstep with
  | idle => exact absurd rfl hchanged
  | @reset e rest hedges hrst => exact ⟨e, rest, hedges, .inl hrst⟩
  | @command e rest _ hedges _ hvalid hready heffect =>
    refine ⟨e, rest, hedges, .inr ⟨hvalid, hready, ?_⟩⟩
    generalize decode e.cmd = i at heffect
    cases heffect with
    | seed v => exact .inl ⟨v, rfl⟩
    | raise => exact absurd rfl hchanged
    | draw hseeded hfrom =>
      cases hfrom with
      | buffered => exact absurd rfl hchanged
      | twisted hcursor => exact .inr ⟨rfl, hseeded, congrArg Fin.val hcursor⟩
  | take => exact absurd (State.takeResponse_words _) hchanged
  | hold => exact absurd rfl hchanged

end

section
/-! SUPPORT. A run in which the host draws and takes each response (30_encoding.md section 4): one induction over the
commands, for any property of the block that is kept from draw to draw. -/

namespace Sys2Proof.Machine

/-! ## One draw whose response is taken -/

/-- Unless a draw was the last of its generation, the next one is from the same array, one index on. -/
theorem State.drawsFrom_drawn (s : State) (m : Memory) {c : Cursor} (y : Word) (hmore : c + 1 ≠ Config.exhausted) :
    (s.drawn m c y).takeResponse.DrawsFrom m (c + 1) := by
  have hwords : (s.drawn m c y).takeResponse.words = m := State.takeResponse_words _
  have hcursor : (s.drawn m c y).takeResponse.cursor = c + 1 := State.takeResponse_cursor _
  have hfrom := State.DrawsFrom.buffered (s := (s.drawn m c y).takeResponse) (by rwa [hcursor])
  rwa [hwords, hcursor] at hfrom

theorem State.DrawsFrom.withEdges {s : State} {m : Memory} {c : Cursor} (h : s.DrawsFrom m c) (es : List Edge) :
    (s.withEdges es).DrawsFrom m c := by
  cases h with
  | buffered hcursor => exact .buffered hcursor
  | twisted hcursor htwist => exact .twisted hcursor htwist

/-- A block out of HALTED whose response has been taken accepts. -/
theorem State.takeResponse_cmdReady {s : State} (hfault : s.fault = false) : s.takeResponse.cmdReady = true :=
  (State.cmdReady_iff _).mpr ⟨s.takeResponse_fault.trans hfault, s.takeResponse_rsp⟩

/-- The transfer of a response and what the host drives next do not meet. -/
theorem State.withEdges_takeResponse (s : State) (es : List Edge) :
    (s.withEdges es).takeResponse = s.takeResponse.withEdges es := by
  rw [State.takeResponse_eq, State.takeResponse_eq]
  rfl

/-- Two edges of a run: a command that the block accepts, and the host taking its response. -/
theorem run_present_take {s t : State} {cmd : CmdWord} {rest : List Edge}
    (hedges : s.edges = presentEdge cmd :: takeEdge :: rest) (hready : s.cmdReady = true)
    (hexec : exec (decode cmd) s = .next t) (n : Nat) :
    Host.Core.run Sys2Proof.core (n + 2) s = Host.Core.run Sys2Proof.core n (t.takeResponse.withEdges rest) := by
  have hpresent : step s = .next (t.withEdges (takeEdge :: rest)) :=
    (step_of_accepted hedges rfl rfl hready).trans (exec_withEdges hexec _)
  have htake : step (t.withEdges (takeEdge :: rest)) = .next (t.takeResponse.withEdges rest) := by
    rw [step_edge (t.withEdges_edges _), ← State.withEdges_takeResponse]
    rfl
  rw [run_of_step hpresent, run_of_step htake]

/-! ## Any number of draws -/

/-- A property of the block, by the number of draws so far, under which it draws with the responses `out`, up to the
bound `n`. -/
structure DrawsOut (P : Nat → State → Prop) (out : Nat → Word) (n : Nat) : Prop where
  withEdges {k : Nat} {s : State} (h : P k s) (es : List Edge) : P k (s.withEdges es)
  ready {k : Nat} {s : State} (h : P k s) : s.cmdReady = true
  seeded {k : Nat} {s : State} (h : P k s) : s.seeded = true
  draw {k : Nat} {s : State} (hlt : k < n) (h : P k s) : ∃ m c y, s.DrawsFrom m c ∧ m.read (drawIndex c) = some y ∧
    temper y = out k ∧ P (k + 1) (s.drawn m c y).takeResponse

/-- The run completes, the host has taken the responses in order, and the property holds after the last draw. -/
theorem DrawsOut.run {P : Nat → State → Prop} {out : Nat → Word} {n : Nat} (h : DrawsOut P out n)
    {cmds : List CmdWord} {k : Nat} {s : State} (hP : P k s) (hle : k + cmds.length ≤ n)
    (hcmds : ∀ c ∈ cmds, c.getLsbD 32 = false) (hedges : s.edges = drawEdges cmds) :
    ∃ t, Host.Core.run Sys2Proof.core (2 * cmds.length) s = .next t ∧ t.edges = [] ∧ P (k + cmds.length) t ∧
      t.responses = s.responses ++ (List.range cmds.length).map fun j => out (k + j) := by
  induction cmds generalizing k s with
  | nil => exact ⟨s, rfl, hedges, hP, (List.append_nil _).symm⟩
  | cons cmd cmds ih =>
    rw [List.length_cons] at hle
    obtain ⟨m, c, y, hfrom, hread, hout, hnext⟩ := h.draw (by omega) hP
    have hexec : exec (decode cmd) s = .next (s.drawn m c y) := by
      rw [decode_of_opBit_false (hcmds cmd List.mem_cons_self)]
      exact hfrom.exec_next_of_read (h.ready hP) (h.seeded hP) hread
    obtain ⟨t, hrun, hdone, hPt, hresponses⟩ := ih (s := (s.drawn m c y).takeResponse.withEdges (drawEdges cmds))
      (h.withEdges hnext _) (by omega) (fun c hc => hcmds c (List.mem_cons_of_mem _ hc)) rfl
    refine ⟨t, (run_present_take hedges (h.ready hP) hexec _).trans hrun, hdone, ?_, ?_⟩
    · rwa [List.length_cons, ← Nat.add_assoc, Nat.add_right_comm]
    · have hshift (j : Nat) : out (k + 1 + j) = out (k + (j + 1)) := by rw [Nat.add_right_comm, Nat.add_assoc]
      rw [hresponses, State.withEdges_responses, State.takeResponse_responses, State.drawn_responses, State.drawn_rsp,
        Option.toList_some, hout, List.append_assoc, List.length_cons, List.range_succ_eq_map, List.map_cons,
        List.map_map, List.singleton_append]
      simp only [hshift]
      rfl

end Sys2Proof.Machine
end

section
/-! SUPPORT. The closed form of the output sequence (42_draw_tempering.md R107, R108): the block's array after `k` draws
is a generation of the seed, and its cursor is a function of `k`. -/

namespace Sys2Proof.Machine

/-- Every generation of a seed is a populated array: the twists complete. -/
theorem exists_generation (v : Word) (g : Nat) : ∃ m, generation v g = some m ∧ m.populated := by
  induction g with
  | zero => exact ⟨seedWords v [], rfl, seedWords_populated v []⟩
  | succ g ih =>
    obtain ⟨m, hm, hpop⟩ := ih
    obtain ⟨n, htwist⟩ := exists_twistWords hpop
    exact ⟨n, by rw [generation, hm, Option.bind_some, htwist], twistWords_populated hpop htwist⟩

/-- `out_{k+1}` is drawn from generation `k div 624 + 1` at index `k mod 624`. -/
theorem closedForm_succ (v : Word) (k : Nat) : closedForm v (k + 1) =
    (generation v (k / 624 + 1)).bind fun m => (m.read (indexOf (k % 624))).map temper := rfl

/-- The closed form has a value at every position. -/
theorem closedForm_succ_isSome (v : Word) (k : Nat) : (closedForm v (k + 1)).isSome = true := by
  obtain ⟨m, hm, hpop⟩ := exists_generation v (k / 624 + 1)
  rw [closedForm_succ, hm, Option.bind_some, Option.isSome_map]
  exact hpop _

/-- The block after SEED `v` and `k` draws, each response taken: its array is the generation of the last draw, and the
cursor is `((k-1) mod 624) + 1`, or 624 before the first draw (42_draw_tempering.md R107). -/
structure AfterDraws (v : Word) (k : Nat) (s : State) : Prop where
  ready : s.cmdReady = true
  seeded : s.seeded = true
  words : generation v ((k + 623) / 624) = some s.words
  cursor : s.cursor.val = (k + 623) % 624 + 1

/-- A SEED over a canonical array leaves generation 0. -/
theorem AfterDraws.seedWith {s : State} (hready : s.cmdReady = true) (hwf : s.words.wf) (v : Word) :
    AfterDraws v 0 (s.seedWith v) :=
  ⟨hready, rfl, congrArg some (seedWords_of_wf v Memory.wf_nil hwf), congrArg Fin.val (s.seedWith_cursor v)⟩

/-- The next draw is from generation `k div 624 + 1` at index `k mod 624`: where a new generation is due, the draw
twists. -/
theorem AfterDraws.exists_drawsFrom {v : Word} {k : Nat} {s : State} (h : AfterDraws v k s) :
    ∃ m c, s.DrawsFrom m c ∧ generation v (k / 624 + 1) = some m ∧ c.val = k % 624 := by
  obtain ⟨-, -, hwords, hcursor⟩ := h
  by_cases hdue : k % 624 = 0
  · obtain ⟨m, hm, -⟩ := exists_generation v (k / 624 + 1)
    have hexhausted : s.cursor.val = 624 := by omega
    have htwist : twistWords s.words = some m := by
      rw [show (k + 623) / 624 = k / 624 by omega] at hwords
      rwa [generation, hwords, Option.bind_some] at hm
    exact ⟨m, 0, .twisted (Fin.ext hexhausted) htwist, hm, hdue.symm⟩
  · have hbuffered : s.cursor.val ≠ 624 := by omega
    rw [show (k + 623) / 624 = k / 624 + 1 by omega] at hwords
    exact ⟨s.words, s.cursor, .buffered (Fin.ne_of_val_ne hbuffered), hwords, by omega⟩

/-- From draw to draw the responses are the closed form. -/
theorem afterDraws_drawsOut (v : Word) (n : Nat) :
    DrawsOut (AfterDraws v) (fun k => (closedForm v (k + 1)).getD 0#32) n where
  withEdges h es := ⟨h.ready, h.seeded, h.words, h.cursor⟩
  ready h := h.ready
  seeded h := h.seeded
  draw {k s} _ h := by
    obtain ⟨m, c, hfrom, hm, hc⟩ := h.exists_drawsFrom
    obtain ⟨m', hm', hpop⟩ := exists_generation v (k / 624 + 1)
    obtain rfl : m = m' := Option.some.inj (hm.symm.trans hm')
    obtain ⟨y, hread⟩ := Option.isSome_iff_exists.mp (hpop (drawIndex c))
    obtain ⟨hfault, -⟩ := s.cmdReady_iff.mp h.ready
    have hread' : m.read (indexOf (k % 624)) = some y := hc ▸ hread
    refine ⟨m, c, y, hfrom, hread, ?_, State.takeResponse_cmdReady hfault, ?_, ?_, ?_⟩
    · rw [closedForm_succ, hm, Option.bind_some, hread']
      rfl
    · rw [State.takeResponse_seeded, State.drawn_seeded, h.seeded]
    · rw [State.takeResponse_words, State.drawn_words, show (k + 1 + 623) / 624 = k / 624 + 1 by omega, hm]
    · rw [State.takeResponse_cursor, State.drawn_cursor, hfrom.cursor_succ_val, hc]
      omega

end Sys2Proof.Machine
end

section
/-! SUPPORT. The 624 draws of one generation (42_draw_tempering.md R105): after the first, no draw touches the array,
and the draw at index `k` responds with the tempered word there. -/

namespace Sys2Proof.Machine

/-- The block that draws generation `m`, after `k` of its draws: the next one is from `m` at index `k`, and from the
first draw on `m` is the block's own array. -/
structure DrawsGeneration (m : Memory) (k : Nat) (s : State) : Prop where
  ready : s.cmdReady = true
  seeded : s.seeded = true
  next : k < 624 → ∃ c, c.val = k ∧ s.DrawsFrom m c
  words : 0 < k → s.words = m

/-- From draw to draw the responses are the tempered words of the generation. -/
theorem drawsGeneration_drawsOut {m : Memory} {w : Nat → Word} (hheld : m.Holds w) :
    DrawsOut (DrawsGeneration m) (fun k => temper (w k)) 624 where
  withEdges h es :=
    ⟨h.ready, h.seeded, fun hk => (h.next hk).imp fun _ ⟨hc, hfrom⟩ => ⟨hc, hfrom.withEdges es⟩, h.words⟩
  ready h := h.ready
  seeded h := h.seeded
  draw {k s} hk h := by
    obtain ⟨c, rfl, hfrom⟩ := h.next hk
    obtain ⟨hfault, -⟩ := s.cmdReady_iff.mp h.ready
    refine ⟨m, c, w c.val, hfrom, hheld c.val hk, rfl, State.takeResponse_cmdReady hfault, ?_, fun hmore => ?_,
      fun _ => State.takeResponse_words _⟩
    · rw [State.takeResponse_seeded, State.drawn_seeded, h.seeded]
    · have hval := hfrom.cursor_succ_val
      exact ⟨c + 1, hval, s.drawsFrom_drawn m _ (Fin.ne_of_val_ne (by rw [hval]; exact hmore.ne))⟩

/-- A block about to twist that answers 624 draws ends with the twisted array, and its responses are that array's words,
tempered. -/
theorem run_generation {s : State} {cmds : List CmdWord} (hinv : s.Inv) (hseeded : s.seeded = true)
    (hready : s.cmdReady = true) (hcursor : s.cursor.val = 624) (hlength : cmds.length = 624)
    (hcmds : ∀ c ∈ cmds, c.getLsbD 32 = false) (hedges : s.edges = drawEdges cmds) :
    ∃ t w, Host.Core.run Sys2Proof.core (2 * cmds.length) s = .next t ∧ t.words.wf ∧ t.words.Holds w ∧
      t.responses = s.responses ++ (List.range 624).map fun k => temper (w k) := by
  obtain ⟨m, htwist⟩ := exists_twistWords (hinv.array.populated hseeded)
  obtain ⟨w, hheld⟩ := Memory.exists_holds (twistWords_populated (hinv.array.populated hseeded) htwist)
  have hstart : DrawsGeneration m 0 s :=
    ⟨hready, hseeded, fun _ => ⟨0, rfl, .twisted (Fin.ext hcursor) htwist⟩, (nomatch ·)⟩
  obtain ⟨t, hrun, -, hend, hresponses⟩ :=
    (drawsGeneration_drawsOut hheld).run hstart (by rw [hlength]) hcmds hedges
  obtain rfl : t.words = m := hend.words (by omega)
  rw [hlength] at hresponses
  simp only [Nat.zero_add] at hresponses
  exact ⟨t, w, hrun, twistWords_wf hinv.array.wf htwist, hheld, hresponses⟩

/-! ## The first two outputs of SEED 1 (95_test_vectors.md E1) -/

/-- The first word of generation 1 is the `mix` of the words 0, 1 and 397 of the recurrence. -/
theorem temper_seed_one_zero : temper (passWords (seedWord 1#32) 624 0) = 1791095845#32 := by
  rw [passWords_final_of_le_226 _ (by decide)]
  decide +kernel

/-- The second word of generation 1 is the `mix` of the words 1, 2 and 398 of the recurrence. -/
theorem temper_seed_one_one : temper (passWords (seedWord 1#32) 624 1) = 4282876139#32 := by
  rw [passWords_final_of_le_226 _ (by decide)]
  decide +kernel

end Sys2Proof.Machine
end

section
/-! PROOFS. The statements about whole runs of draws. -/

open Sys2Proof Sys2Proof.Machine

/-- Settles O38: the SEED leaves the block after 0 draws, and each draw gives the next value of the closed form. -/
theorem outputSequenceIsTheClosedForm : Obligations.OutputSequenceIsTheClosedForm := by
  intro s v cmds hready hwf hcmds hedges
  let u := s.withEdges (drawEdges cmds)
  have hreadyu : u.cmdReady = true := hready
  have hstep : step s = .next (u.seedWith v) := by
    rw [step_of_accepted hedges rfl rfl hready, presentEdge, decode_encode, exec_seed_of_ready hreadyu]
  have hstart : AfterDraws v 0 (u.seedWith v) := .seedWith hreadyu hwf v
  obtain ⟨t, hrun, hdone, hend, hresponses⟩ :=
    (afterDraws_drawsOut v cmds.length).run hstart (Nat.zero_add _).le hcmds (State.seedWith_edges _ v)
  refine ⟨t, ?_, hdone, ?_, fun j _ => closedForm_succ_isSome v j, ?_⟩
  · rw [Nat.add_comm, run_of_step hstep, hrun]
  · have hout (j : Nat) : some ((closedForm v (0 + j + 1)).getD 0#32) = closedForm v (j + 1) := by
      obtain ⟨y, hy⟩ := Option.isSome_iff_exists.mp (closedForm_succ_isSome v j)
      rw [Nat.zero_add, hy, Option.getD_some]
    rw [hresponses, List.map_append, List.map_map, Function.comp_def]
    simp only [hout]
    rfl
  · rw [hend.cursor]
    split <;> omega

/-- Settles O39: the responses are the tempered words of the twisted array, TEMPER is injective, and a canonical array
is determined by its words. -/
theorem generationIsRecoverableFromItsOutputs : Obligations.GenerationIsRecoverableFromItsOutputs := by
  intro s₁ s₂ cmds hinv₁ hinv₂ hseeded₁ hseeded₂ hready₁ hready₂ hcursor₁ hcursor₂ hnone₁ hnone₂ hlength hcmds hedges₁
    hedges₂
  obtain ⟨t₁, w₁, hrun₁, hwf₁, hheld₁, hresponses₁⟩ :=
    run_generation hinv₁ hseeded₁ hready₁ hcursor₁ hlength hcmds hedges₁
  obtain ⟨t₂, w₂, hrun₂, hwf₂, hheld₂, hresponses₂⟩ :=
    run_generation hinv₂ hseeded₂ hready₂ hcursor₂ hlength hcmds hedges₂
  rw [hnone₁, List.nil_append] at hresponses₁
  rw [hnone₂, List.nil_append] at hresponses₂
  refine ⟨t₁, t₂, hrun₁, hrun₂, by simp [hresponses₁], fun hsame => ?_⟩
  rw [hresponses₁, hresponses₂] at hsame
  have hwords := List.map_inj_left.mp hsame
  exact hheld₁.unique hheld₂ hwf₁ hwf₂ fun i hi => temper_injective (hwords i (List.mem_range.mpr hi))

/-- Settles O40: the two draws are from the twisted array of SEED 1 at the cursors 0 and 1. -/
theorem seedOneGivesTheSourcesTwoOutputs : Obligations.SeedOneGivesTheSourcesTwoOutputs := by
  intro s hready _
  obtain ⟨m, htwist, hheld⟩ := twistWords_of_holds (seedWords_holds 1#32 s.words)
  obtain ⟨hfault, -⟩ := s.cmdReady_iff.mp hready
  let t := s.seedWith 1#32
  have hseeded : t.seeded = true := s.seedWith_seeded _
  have hfirst : t.DrawsFrom m 0 := .twisted (s.seedWith_cursor _) htwist
  let u := t.drawn m 0 (passWords (seedWord 1#32) 624 0)
  have hsecond : u.takeResponse.DrawsFrom m (0 + 1) := t.drawsFrom_drawn m _ (by decide)
  exact ⟨t, u, u.takeResponse.drawn m (0 + 1) (passWords (seedWord 1#32) 624 1), exec_seed_of_ready hready _,
    hfirst.exec_next_of_read hready hseeded (hheld 0 (by decide)), congrArg some temper_seed_one_zero,
    hsecond.exec_next_of_read (State.takeResponse_cmdReady hfault) (u.takeResponse_seeded.trans hseeded)
      (hheld 1 (by decide)), congrArg some temper_seed_one_one⟩

end
